-- ==== Sys2Proof/Word.lean ====
section
/-!
DEFINITION. The two word types of the machine: 8-bit data (00_scope R5, R6) and 16-bit addresses.
-/

namespace Sys2Proof

/-- An 8-bit value: a register, a memory byte, an opcode, an operand byte (00_scope R5). -/
abbrev Byte := BitVec 8

/-- A 16-bit value: an address or the program counter (00_scope R5). -/
abbrev Word := BitVec 16

end Sys2Proof
end

