-- ==== Sys2Proof/Syntax.lean ====
section
/-!
DEFINITION. The instructions of the 6502em core as data: one constructor of `Instr` per row of spec/opcode_table.json
(30_encoding R83), with its operand assembled (R82), and the operation kinds `Op` that key the instruction table.
-/

namespace Sys2Proof

/-- An instruction: one constructor per row of spec/opcode_table.json, in the table's order. -/
inductive Instr where
  /-- 0x00, the halt sentinel (R175). -/
  | hlt
  /-- CLC (R160). -/
  | clc
  /-- JSR absolute (R173). -/
  | jsr (addr : Word)
  /-- SEC (R161). -/
  | sec
  /-- JMP absolute (R171). -/
  | jmpAbs (addr : Word)
  /-- CLI (R162). -/
  | cli
  /-- RTS (R174). -/
  | rts
  /-- JMP indirect (R172). -/
  | jmpInd (ptr : Word)
  /-- ADC absolute (R180). -/
  | adcAbs (addr : Word)
  /-- SEI (R163). -/
  | sei
  /-- DEY (R153). -/
  | dey
  /-- TXA (R155). -/
  | txa
  /-- STA absolute (R142). -/
  | staAbs (addr : Word)
  /-- STX absolute (R143). -/
  | stxAbs (addr : Word)
  /-- TYA (R157). -/
  | tya
  /-- LDY immediate (R139). -/
  | ldyImm (imm : Byte)
  /-- LDA pre-indexed indirect (R134). -/
  | ldaIzx (zp : Byte)
  /-- LDX immediate (R136). -/
  | ldxImm (imm : Byte)
  /-- TAY (R156). -/
  | tay
  /-- LDA immediate (R130). -/
  | ldaImm (imm : Byte)
  /-- TAX (R154). -/
  | tax
  /-- LDY absolute (R140). -/
  | ldyAbs (addr : Word)
  /-- LDA absolute (R131). -/
  | ldaAbs (addr : Word)
  /-- LDX absolute (R137). -/
  | ldxAbs (addr : Word)
  /-- LDA post-indexed indirect (R135). -/
  | ldaIzy (zp : Byte)
  /-- CLV (R166). -/
  | clv
  /-- LDA absolute indexed by Y (R133). -/
  | ldaAby (addr : Word)
  /-- LDY absolute indexed by X (R141). -/
  | ldyAbx (addr : Word)
  /-- LDA absolute indexed by X (R132). -/
  | ldaAbx (addr : Word)
  /-- LDX absolute indexed by Y (R138). -/
  | ldxAby (addr : Word)
  /-- INY (R151). -/
  | iny
  /-- DEX (R152). -/
  | dex
  /-- BNE (R170). -/
  | bne (rel : Byte)
  /-- CLD (R164). -/
  | cld
  /-- INX (R150). -/
  | inx
  /-- NOP (R167). -/
  | nop
  /-- SED (R165). -/
  | sed
  deriving DecidableEq, Repr

/-- The kind of an instruction that has a descriptor: operation, register and addressing mode, without the operand. It is
what an opcode byte selects (30_encoding R80). The sentinel has none (R84). -/
inductive Op where
  | clc | jsr | sec | jmpAbs | cli | rts | jmpInd | adcAbs | sei | dey | txa | staAbs | stxAbs | tya | ldyImm | ldaIzx
  | ldxImm | tay | ldaImm | tax | ldyAbs | ldaAbs | ldxAbs | ldaIzy | clv | ldaAby | ldyAbx | ldaAbx | ldxAby | iny | dex
  | bne | cld | inx | nop | sed
  deriving DecidableEq, Repr

/-- The nine instruction formats, by addressing mode (30_encoding R81). -/
inductive Format where
  | imp | imm | abs | abx | aby | ind | izx | izy | rel
  deriving DecidableEq, Repr

end Sys2Proof
end

