-- ==== Sys2Proof/Config.lean ====
section
/-!
DEFINITION. What an implementation fixes: the parameters of 00_scope R5 that the spec leaves open (92_eei_decisions, "Open
parameters in one list"). `OPCODE_MAP` and `DESC_CYCLES` are the two halves of the instruction table (10_state R40). The
default values stand in Decode.lean (`defaultConfig`). The spec leaves no result undefined, so there is no free value.
-/

namespace Sys2Proof

/-- A row of the instruction table: the opcode byte (`OPCODE_MAP`, D1) of an operation and its two display cycle numbers
(`DESC_CYCLES`, D17). The length belongs to the operation's format (30_encoding R81). -/
structure Row where
  opcode : Byte
  op : Op
  /-- Base cycle count, display data (70_reset R274). -/
  base : Nat
  /-- Maximum extra cycle count, display data (70_reset R274). -/
  extra : Nat
  deriving DecidableEq, Repr

/-- The open parameters of the machine. -/
structure Config where
  /-- The instruction table: `OPCODE_MAP` (D1) with `DESC_CYCLES` (D17). -/
  table : List Row
  /-- `RESET_VECTOR` (D4). -/
  resetVector : Word
  /-- `ZP_WRAP` (D13): whether zero-page pointer arithmetic wraps at 8 bits. -/
  zpWrap : Bool
  deriving DecidableEq, Repr

/-- The immutable descriptor of an opcode (10_state R40). Its display-format template is out of scope (00_scope R3). -/
structure Descriptor where
  /-- Total length in bytes, the opcode byte included. -/
  length : Nat
  base : Nat
  extra : Nat
  deriving DecidableEq, Repr

end Sys2Proof
end

