-- ==== Sys2Proof/Decode.lean ====
section
/-!
DEFINITION. Decoding and encoding (30_encoding): formats and lengths, the opcode map, operand assembly, a decoder that is
total on any bytes and rejects by name, and the encoder, written from the same tables. The defaults of the spec's open
parameters stand here too.
-/

namespace Sys2Proof

/-! ## Byte order -/

/-- `{hi, lo}`: the 16-bit value whose low byte is `lo` (00_scope R6; little-endian by 20_memory R59). -/
def wordOf (lo hi : Byte) : Word := hi ++ lo

/-- Bits 7..0. -/
def loByte (w : Word) : Byte := w.extractLsb' 0 8

/-- Bits 15..8. -/
def hiByte (w : Word) : Byte := w.extractLsb' 8 8

/-! ## Formats and lengths (R81) -/

/-- The format of each operation (column "format" of R83). -/
def Op.format : Op → Format
  | .clc | .sec | .cli | .sei | .cld | .sed | .clv | .nop => .imp
  | .inx | .iny | .dex | .dey | .tax | .txa | .tay | .tya | .rts => .imp
  | .ldaImm | .ldxImm | .ldyImm => .imm
  | .ldaAbs | .ldxAbs | .ldyAbs | .staAbs | .stxAbs | .adcAbs | .jmpAbs | .jsr => .abs
  | .ldaAbx | .ldyAbx => .abx
  | .ldaAby | .ldxAby => .aby
  | .jmpInd => .ind
  | .ldaIzx => .izx
  | .ldaIzy => .izy
  | .bne => .rel

/-- How many operand bytes follow the opcode byte (R81). -/
def Format.operandBytes : Format → Nat
  | .imp => 0
  | .imm | .izx | .izy | .rel => 1
  | .abs | .abx | .aby | .ind => 2

/-- Total length of an instruction of the format, the opcode byte included (R81). -/
def Format.length (f : Format) : Nat := f.operandBytes + 1

/-- Total length of an operation's instruction: a function of the opcode alone (R86). -/
def Op.length (op : Op) : Nat := op.format.length

/-! ## The instruction table -/

/-- The default instruction table: opcode bytes of 30_encoding R83 (D1, D2), cycle numbers of 70_reset R274 (D17). -/
def defaultTable : List Row :=
  [ ⟨0x18, .clc, 2, 0⟩, ⟨0x20, .jsr, 6, 0⟩, ⟨0x38, .sec, 2, 0⟩, ⟨0x4C, .jmpAbs, 3, 0⟩, ⟨0x58, .cli, 2, 0⟩,
    ⟨0x60, .rts, 6, 0⟩, ⟨0x6C, .jmpInd, 5, 0⟩, ⟨0x6D, .adcAbs, 4, 0⟩, ⟨0x78, .sei, 2, 0⟩, ⟨0x88, .dey, 2, 0⟩,
    ⟨0x8A, .txa, 2, 0⟩, ⟨0x8D, .staAbs, 4, 0⟩, ⟨0x8E, .stxAbs, 4, 0⟩, ⟨0x98, .tya, 2, 0⟩ ] ++
  [ ⟨0xA0, .ldyImm, 2, 0⟩, ⟨0xA1, .ldaIzx, 6, 0⟩, ⟨0xA2, .ldxImm, 2, 0⟩, ⟨0xA8, .tay, 2, 0⟩, ⟨0xA9, .ldaImm, 2, 0⟩,
    ⟨0xAA, .tax, 2, 0⟩, ⟨0xAC, .ldyAbs, 4, 0⟩, ⟨0xAD, .ldaAbs, 4, 0⟩, ⟨0xAE, .ldxAbs, 4, 0⟩, ⟨0xB1, .ldaIzy, 5, 1⟩,
    ⟨0xB8, .clv, 2, 0⟩, ⟨0xB9, .ldaAby, 4, 1⟩ ] ++
  [ ⟨0xBC, .ldyAbx, 4, 1⟩, ⟨0xBD, .ldaAbx, 4, 1⟩, ⟨0xBE, .ldxAby, 4, 1⟩, ⟨0xC8, .iny, 2, 0⟩, ⟨0xCA, .dex, 2, 0⟩,
    ⟨0xD0, .bne, 2, 2⟩, ⟨0xD8, .cld, 2, 0⟩, ⟨0xE8, .inx, 2, 0⟩, ⟨0xEA, .nop, 2, 0⟩, ⟨0xF8, .sed, 2, 0⟩ ]

/-- The parameters at the spec's defaults: the table above, `RESET_VECTOR` = 0xFFFC (D4), `ZP_WRAP` = false (D13). -/
def defaultConfig : Config := { table := defaultTable, resetVector := 0xFFFC, zpWrap := false }

/-- `HALT_OPCODE`, the sentinel, fixed at 0x00 (00_scope R5, 30_encoding R84). -/
def haltOpcode : Byte := 0x00

/-- The table row of an opcode byte, absent where no descriptor is registered (40 R103). -/
def findRow (t : List Row) (b : Byte) : Option Row := t.find? (fun r => r.opcode == b)

/-- The opcode byte of an operation. -/
def opcodeOf (t : List Row) (op : Op) : Option Byte := (t.find? (fun r => r.op == op)).map Row.opcode

/-- The descriptor that a row gives its opcode (10_state R40). -/
def Row.descriptor (r : Row) : Descriptor := { length := r.op.length, base := r.base, extra := r.extra }

/-- `lookup(op)`: the descriptor of an opcode byte (40 R103). -/
def lookup (t : List Row) (b : Byte) : Option Descriptor := (findRow t b).map Row.descriptor

/-! ## Decoding -/

/-- What one opcode byte is (R87). -/
inductive OpcodeClass where
  | halt
  | instr (op : Op)
  | unknown
  deriving DecidableEq, Repr

/-- `decode : byte -> Halt | Instr | Unknown`, total on all 256 values (R87): the sentinel is tested before any lookup (R84). -/
def classify (t : List Row) (b : Byte) : OpcodeClass :=
  if b = haltOpcode then .halt
  else match findRow t b with
    | some r => .instr r.op
    | none => .unknown

/-- The instruction of an operation with its operand bytes: byte 1 alone is an 8-bit operand, bytes 1 and 2 are a
little-endian 16-bit operand (R82). -/
def Op.build (op : Op) (b1 b2 : Byte) : Instr :=
  match op with
  | .clc => .clc
  | .jsr => .jsr (wordOf b1 b2)
  | .sec => .sec
  | .jmpAbs => .jmpAbs (wordOf b1 b2)
  | .cli => .cli
  | .rts => .rts
  | .jmpInd => .jmpInd (wordOf b1 b2)
  | .adcAbs => .adcAbs (wordOf b1 b2)
  | .sei => .sei
  | .dey => .dey
  | .txa => .txa
  | .staAbs => .staAbs (wordOf b1 b2)
  | .stxAbs => .stxAbs (wordOf b1 b2)
  | .tya => .tya
  | .ldyImm => .ldyImm b1
  | .ldaIzx => .ldaIzx b1
  | .ldxImm => .ldxImm b1
  | .tay => .tay
  | .ldaImm => .ldaImm b1
  | .tax => .tax
  | .ldyAbs => .ldyAbs (wordOf b1 b2)
  | .ldaAbs => .ldaAbs (wordOf b1 b2)
  | .ldxAbs => .ldxAbs (wordOf b1 b2)
  | .ldaIzy => .ldaIzy b1
  | .clv => .clv
  | .ldaAby => .ldaAby (wordOf b1 b2)
  | .ldyAbx => .ldyAbx (wordOf b1 b2)
  | .ldaAbx => .ldaAbx (wordOf b1 b2)
  | .ldxAby => .ldxAby (wordOf b1 b2)
  | .iny => .iny
  | .dex => .dex
  | .bne => .bne b1
  | .cld => .cld
  | .inx => .inx
  | .nop => .nop
  | .sed => .sed

/-- Why bytes are no instruction. -/
inductive DecodeError where
  /-- The opcode byte has no descriptor (R85). -/
  | unknownOpcode (b : Byte)
  /-- Fewer bytes than the opcode's length asks for (only on a list that ends; memory never does). -/
  | truncated
  deriving DecidableEq, Repr

/-- The operation's instruction from the bytes after its opcode byte, with the bytes left over. -/
def decodeOperands (op : Op) (rest : List Byte) : Except DecodeError (Instr × List Byte) :=
  match op.format.operandBytes, rest with
  | 0, r => .ok (op.build 0 0, r)
  | 1, b1 :: r => .ok (op.build b1 0, r)
  | _, b1 :: b2 :: r => .ok (op.build b1 b2, r)
  | _, _ => .error .truncated

/-- The instruction at the head of a byte list, with the bytes left over (R80, R86, R87). -/
def decode (t : List Row) : List Byte → Except DecodeError (Instr × List Byte)
  | [] => .error .truncated
  | b :: rest =>
    match classify t b with
    | .halt => .ok (.hlt, rest)
    | .instr op => decodeOperands op rest
    | .unknown => .error (.unknownOpcode b)

/-! ## Encoding -/

/-- The operation of an instruction; the sentinel has none (R84). -/
def Instr.op : Instr → Option Op
  | .hlt => none
  | .clc => some .clc
  | .jsr _ => some .jsr
  | .sec => some .sec
  | .jmpAbs _ => some .jmpAbs
  | .cli => some .cli
  | .rts => some .rts
  | .jmpInd _ => some .jmpInd
  | .adcAbs _ => some .adcAbs
  | .sei => some .sei
  | .dey => some .dey
  | .txa => some .txa
  | .staAbs _ => some .staAbs
  | .stxAbs _ => some .stxAbs
  | .tya => some .tya
  | .ldyImm _ => some .ldyImm
  | .ldaIzx _ => some .ldaIzx
  | .ldxImm _ => some .ldxImm
  | .tay => some .tay
  | .ldaImm _ => some .ldaImm
  | .tax => some .tax
  | .ldyAbs _ => some .ldyAbs
  | .ldaAbs _ => some .ldaAbs
  | .ldxAbs _ => some .ldxAbs
  | .ldaIzy _ => some .ldaIzy
  | .clv => some .clv
  | .ldaAby _ => some .ldaAby
  | .ldyAbx _ => some .ldyAbx
  | .ldaAbx _ => some .ldaAbx
  | .ldxAby _ => some .ldxAby
  | .iny => some .iny
  | .dex => some .dex
  | .bne _ => some .bne
  | .cld => some .cld
  | .inx => some .inx
  | .nop => some .nop
  | .sed => some .sed

/-- The operand bytes of an instruction in ascending address order (R81, R82). -/
def Instr.operandBytes : Instr → List Byte
  | .hlt | .clc | .sec | .cli | .sei | .cld | .sed | .clv | .nop | .rts => []
  | .inx | .iny | .dex | .dey | .tax | .txa | .tay | .tya => []
  | .ldaImm b | .ldxImm b | .ldyImm b | .ldaIzx b | .ldaIzy b | .bne b => [b]
  | .ldaAbs w | .ldxAbs w | .ldyAbs w | .staAbs w | .stxAbs w | .adcAbs w => [loByte w, hiByte w]
  | .ldaAbx w | .ldyAbx w | .ldaAby w | .ldxAby w => [loByte w, hiByte w]
  | .jmpAbs w | .jmpInd w | .jsr w => [loByte w, hiByte w]

/-- The length of an instruction in bytes (R81); the sentinel is one byte (R83). -/
def Instr.length (i : Instr) : Nat :=
  match i.op with
  | none => 1
  | some op => op.length

/-- The bytes of an instruction: its opcode byte, then its operand bytes (R80). Absent where the table gives its operation
no opcode. -/
def encode (t : List Row) (i : Instr) : Option (List Byte) :=
  match i.op with
  | none => some [haltOpcode]
  | some op => (opcodeOf t op).map (fun b => b :: i.operandBytes)

/-! ## One instruction as one number, as spec/opcode_table.json numbers its bits -/

/-- Byte `k` of the instruction whose low `nbits` bits are `w`: byte 0 is the opcode byte, at the lowest address; every bit
above `nbits` is 0. -/
def tableByte (nbits w k : Nat) : Byte := BitVec.ofNat 8 ((w % 2 ^ nbits) / 2 ^ (8 * k))

/-- The bytes of that instruction, up to the longest instruction's three. -/
def tableBytes (nbits w : Nat) : List Byte := [tableByte nbits w 0, tableByte nbits w 1, tableByte nbits w 2]

/-- The instruction the decoder reads, with the default opcode map, from an instruction whose bits are `w`. -/
def decodeTableWord (nbits w : Nat) : Option Instr :=
  match decode defaultTable (tableBytes nbits w) with
  | .ok (i, _) => some i
  | .error _ => none

end Sys2Proof
end

