-- ==== Sys2Proof/WellFormed.lean ====
section
/-!
DEFINITION. What is checked of an instruction and of a configuration. Every operand value is legal (30_encoding R87), so an
instruction is checked against the instruction table only; the table is checked against the constraints that D1 puts on it.
-/

namespace Sys2Proof

/-- The instruction has an encoding: it is the sentinel, or the table gives its operation an opcode (30_encoding R83, R84). -/
def Instr.wf (t : List Row) (i : Instr) : Bool :=
  match i.op with
  | none => true
  | some op => (opcodeOf t op).isSome

/-- All 36 operations that have a descriptor (30_encoding R83, 10_state R40). -/
def allOps : List Op :=
  [.clc, .jsr, .sec, .jmpAbs, .cli, .rts, .jmpInd, .adcAbs, .sei, .dey, .txa, .staAbs, .stxAbs, .tya, .ldyImm, .ldaIzx,
   .ldxImm, .tay, .ldaImm, .tax, .ldyAbs, .ldaAbs, .ldxAbs, .ldaIzy, .clv, .ldaAby, .ldyAbx, .ldaAbx, .ldxAby, .iny, .dex,
   .bne, .cld, .inx, .nop, .sed]

/-- No opcode byte stands in two rows: the map is injective (92_eei_decisions D1). -/
def opcodesDistinct (t : List Row) : Bool := decide (t.map Row.opcode).Nodup

/-- 0x00 is the sentinel and no row's opcode (D1, 30_encoding R84). -/
def sentinelExcluded (t : List Row) : Bool := t.all (fun r => r.opcode != haltOpcode)

/-- 0xA9 is LDA immediate, which D0 itself fixes (D1). -/
def ldaImmAtA9 (t : List Row) : Bool := (findRow t 0xA9).map Row.op == some .ldaImm

/-- Every operation has exactly one row (30_encoding R83; "one-to-one opcode coverage", 40 R104). -/
def opsCovered (t : List Row) : Bool := decide (t.map Row.op).Nodup && allOps.all (fun op => (opcodeOf t op).isSome)

/-- The constraints D1 puts on the instruction table. `RESET_VECTOR` and `ZP_WRAP` take every value of their types. -/
def Config.wf (c : Config) : Bool :=
  opcodesDistinct c.table && sentinelExcluded c.table && ldaImmAtA9 c.table && opsCovered c.table

end Sys2Proof
end

