-- ==== Sys2Proof/Machine/State.lean ====
section
/-!
DEFINITION. The state of the machine as plain data (10_state R20), the reasons a step can stop, and the state right after
reset.
-/

namespace Sys2Proof.Machine

open Sys2Proof

/-- The run state (10_state R37). -/
inductive RunState where
  /-- Created, not yet reset. -/
  | off
  /-- Between two instruction steps. -/
  | running
  /-- The sentinel opcode 0x00 was fetched. -/
  | halted
  /-- `UnknownOpcode(op, pc)` was raised. -/
  | faulted (op : Byte) (pc : Word)
  deriving DecidableEq, Repr

/-- The execution context of the current instruction, CTX (10_state R36). -/
structure Ctx where
  /-- PC at the start of the step: the address of the opcode byte. -/
  start : Word
  /-- The descriptor of IR, absent until the lookup (40 R101). -/
  desc : Option Descriptor
  /-- The operand bytes, for display only (40 R116). -/
  ops : List Byte
  /-- The actual cycle count (40 R117). -/
  cycles : Nat
  deriving DecidableEq, Repr

/-- The twelve observable elements of a breakpoint condition, a closed enumeration (48 R201). -/
inductive Elem where
  | opcode | pc | a | x | y | sp | c | z | i | d | v | n
  deriving DecidableEq, Repr

/-- A breakpoint condition: observed element and value to match (48 R200). -/
abbrev Condition := Elem × Nat

/-- A breakpoint set (48 R202, R203). -/
structure BreakSet where
  /-- The conditions, AND-combined, in order of appending. -/
  conds : List Condition
  /-- The remaining-hit counter, an unbounded integer. -/
  counter : Int
  /-- The display label, which no rule reads. -/
  label : Option String
  deriving DecidableEq, Repr

/-- The breakpoint manager, BPM (48 R205). -/
structure Bpm where
  /-- The sets, in order of registration (10_state R38). -/
  sets : List BreakSet
  /-- The single-step flag (10_state R39). -/
  singleStep : Bool
  deriving DecidableEq, Repr

/-- The event a step returns (00_scope R9, 48 R211). -/
inductive Event where
  | none
  /-- A halt request, with the index of the set that fired if one did. -/
  | haltRequested (fired : Option Nat)
  deriving DecidableEq, Repr

/-- What the core exposes to the trace renderer at the check point of a step, as plain read-only values (40 R118). -/
structure TraceRow where
  /-- The instruction's address, `CTX.start`. -/
  start : Word
  /-- The executed opcode: IR during the check. -/
  opcode : Byte
  ops : List Byte
  a : Byte
  x : Byte
  y : Byte
  sp : Byte
  p : Byte
  /-- PC, already advanced or redirected. -/
  pc : Word
  /-- The descriptor, with its base and maximum extra cycle numbers. -/
  desc : Option Descriptor
  /-- `CTX.cycles`. -/
  cycles : Nat
  deriving DecidableEq, Repr

/-- The machine state (10_state R20), with three fields of the model's own: `cfg`, `event` and `trace`. -/
structure State where
  /-- A, the accumulator (R21). -/
  a : Byte
  /-- X, index register (R22). -/
  x : Byte
  /-- Y, index register (R23). -/
  y : Byte
  /-- SP, index into the stack page (R25). -/
  sp : Byte
  /-- P, the flags register (R26). -/
  p : Byte
  /-- PC (R24). -/
  pc : Word
  /-- IR, the current opcode (R34). -/
  ir : Byte
  /-- MEM (R35): the cells that differ from 0x00, by rising address (`Memory.wf`). -/
  mem : List Host.Cell
  /-- CTX (R36). -/
  ctx : Option Ctx
  /-- RUN (R37). -/
  run : RunState
  /-- BPM (R38, R39). -/
  bpm : Bpm
  /-- The model's own field: the parameters of 00_scope R5, which no operation writes. DESIGN CHOICE, safe (log 2). -/
  cfg : Config
  /-- The model's own field: the event the last step returned to the host. DESIGN CHOICE, safe (log 3). -/
  event : Event
  /-- The model's own field: what the last step exposed to the renderer. DESIGN CHOICE, safe (log 3). -/
  trace : Option TraceRow
  deriving DecidableEq, Repr

/-- Why the machine takes no further step. -/
inductive Fault where
  /-- Raised by `step` in run state `Faulted(op, pc)`: the unknown opcode is surfaced to the caller as a terminal condition
  (60 R230, R236). Safe: the run has ended. -/
  | unknownOpcode (op : Byte) (pc : Word)
  /-- Raised by `step` in run state `Halted`: a halted machine has no step (10_state R37, 60 R244). Safe: the run has ended. -/
  | halted
  /-- Raised by `step` in run state `Off`: the host may not run a step before reset (70 R266). Safe: no step exists. -/
  | notReset
  deriving DecidableEq, Repr

/-- What the model gives no meaning. -/
inductive Refusal where
  /-- Raised by an arm of `exec` whose instruction has no meaning yet; no arm does. Safe: the run stops. -/
  | notModelled (mnemonic : String)
  /-- Raised by `hostMove` for a host move that 70 R266 does not open in the present run state (93 U27). Safe: no such move
  exists. -/
  | hostMoveNotOpen
  deriving DecidableEq, Repr

/-- The outcome of a step or of an instruction. -/
abbrev Result := Host.Outcome State Fault Refusal

/-- The machine right after reset (10_state R42), reset being applied to a machine just created (70 R268): PC, IR, SP, P and
RUN as R260, R262 and R263 give them, memory all zero, no breakpoint set, single step off, the spec's default parameters.
A, X and Y, which the spec leaves arbitrary, are zero: DESIGN CHOICE, unsafe (log 1). -/
def State.reset : State where
  a := 0x00
  x := 0x00
  y := 0x00
  sp := 0xFF
  p := 0x00
  pc := 0xFFFB
  ir := 0x4C
  mem := []
  ctx := none
  run := .running
  bpm := { sets := [], singleStep := false }
  cfg := defaultConfig
  event := .none
  trace := none

end Sys2Proof.Machine
end

