-- ==== Sys2Proof/Machine/Flags.lean ====
section
/-!
DEFINITION. The flags register P: its six named bits (10_state R26), and every flag computation the spec gives: writing one
bit, and `SetZN` (40 R109).
-/

namespace Sys2Proof.Machine

open Sys2Proof

/-- The six named flags (10_state R26). -/
inductive Flag where
  | c | z | i | d | v | n
  deriving DecidableEq, Repr

/-- The bit position of a flag in P (10_state R26). -/
def Flag.bit : Flag → Nat
  | .c => 0
  | .z => 1
  | .i => 2
  | .d => 3
  | .v => 6
  | .n => 7

/-- The mask of a flag in P (10_state R26). -/
def Flag.mask (f : Flag) : Byte := 1 <<< f.bit

/-- The one-bit view `P.f` (00_scope R8). -/
def flagOf (p : Byte) (f : Flag) : Bool := p.getLsbD f.bit

/-- `P.f <- b`: that bit only (00_scope R8). -/
def putFlag (p : Byte) (f : Flag) (b : Bool) : Byte :=
  if b then p ||| f.mask else p &&& ~~~f.mask

/-- The flags after `SetZN(v)`: Z iff `v` is 0, N bit 7 of `v` (40 R109). -/
def flagsZN (p v : Byte) : Byte := putFlag (putFlag p .z (decide (v = 0))) .n v.msb

/-- The carry-in of ADC as a byte, 0 or 1 (10_state R27). -/
def carryIn (p : Byte) : Byte := if flagOf p .c then 1 else 0

end Sys2Proof.Machine
end

