-- ==== Sys2Proof/Machine/Ops.lean ====
section
/-!
DEFINITION. The named operations over memory and registers: memory as a canonical list of cells, the bus primitives with
their cycle units, register access, the stack, the PC, and taking the one fault. The machine has no return from a fault
(60_exceptions R236): only reset (HostOps.lean) leaves it.
-/

namespace Sys2Proof.Machine

open Sys2Proof

/-! ## Memory -/

/-- What an address that the list does not name reads as: memory is zero-initialized at creation (20_memory R68). -/
def Memory.blank : Byte := 0x00

/-- The byte at an address (20_memory R57). -/
def Memory.readAt : List Host.Cell → Nat → Byte
  | [], _ => Memory.blank
  | c :: m, k => if c.1 = k then c.2 else Memory.readAt m k

/-- A cell put in its place in a list that rises by address. -/
def Memory.insert : List Host.Cell → Nat → Byte → List Host.Cell
  | [], k, v => [(k, v)]
  | c :: m, k, v => if k < c.1 then (k, v) :: c :: m else c :: Memory.insert m k v

/-- The list without the cells of an address. -/
def Memory.erase (m : List Host.Cell) (k : Nat) : List Host.Cell := m.filter (fun c => c.1 != k)

/-- Memory with one byte replaced, in canonical form. -/
def Memory.writeAt (m : List Host.Cell) (k : Nat) (v : Byte) : List Host.Cell :=
  if v = Memory.blank then Memory.erase m k else Memory.insert (Memory.erase m k) k v

/-- The canonical form: addresses strictly rising and within the 65536 of the space (20_memory R50), no cell that reads as an
unlisted address does. -/
abbrev Memory.wf (m : List Host.Cell) : Prop :=
  m.Pairwise (fun c d => c.1 < d.1) ∧ ∀ c ∈ m, c.1 < 65536 ∧ c.2 ≠ Memory.blank

/-- `MEM[addr]`. -/
def State.byteAt (s : State) (addr : Word) : Byte := Memory.readAt s.mem addr.toNat

/-- The 16-bit value at `addr`, low byte first, the second address wrapping at 16 bits (20_memory R52, R54). -/
def State.wordAt (s : State) (addr : Word) : Word := wordOf (s.byteAt addr) (s.byteAt (addr + 1))

/-- `MEM[addr] <- v`, without a cycle unit. -/
def State.poke (s : State) (addr : Word) (v : Byte) : State := { s with mem := Memory.writeAt s.mem addr.toNat v }

/-! ## The execution context -/

/-- `CTX.start`, the address of the executing instruction's opcode byte (10_state R24). With no context it is PC, which is
what the next step's context will hold: DESIGN CHOICE, safe (log 13). -/
def State.start (s : State) : Word :=
  match s.ctx with
  | some c => c.start
  | none => s.pc

/-- `n` more cycle units on the context (40 R117). -/
def State.charge (s : State) (n : Nat) : State :=
  { s with ctx := s.ctx.map (fun c => { c with cycles := c.cycles + n }) }

/-! ## Bus primitives -/

/-- `MemRead(addr, 1)`, one cycle unit (20_memory R51). -/
def State.memRead1 (s : State) (addr : Word) : Byte × State := (s.byteAt addr, s.charge 1)

/-- The offset accessor `MemRead((addr + offset) mod 65536, 1)`, one cycle unit (20_memory R55). -/
def State.memReadOff (s : State) (addr off : Word) : Byte × State := s.memRead1 (addr + off)

/-- `MemRead(addr, 2)`: two byte reads, low byte first, two cycle units (20_memory R52). -/
def State.memRead2 (s : State) (addr : Word) : Word × State :=
  let lo := s.memRead1 addr
  let hi := lo.2.memReadOff addr 1
  (wordOf lo.1 hi.1, hi.2)

/-- `MemWrite(addr, 1, v)`, one cycle unit (20_memory R53). -/
def State.memWrite (s : State) (addr : Word) (v : Byte) : State := (s.poke addr v).charge 1

/-! ## Registers -/

/-- The three general registers (10_state section 1). -/
inductive Reg where
  | a | x | y
  deriving DecidableEq, Repr

/-- A bare register name reads (00_scope R8). -/
def State.reg (s : State) : Reg → Byte
  | .a => s.a
  | .x => s.x
  | .y => s.y

/-- `r <- v`. -/
def State.setReg (s : State) (r : Reg) (v : Byte) : State :=
  match r with
  | .a => { s with a := v }
  | .x => { s with x := v }
  | .y => { s with y := v }

/-- `P <- v`. -/
def State.setP (s : State) (v : Byte) : State := { s with p := v }

/-- `SP <- v`. -/
def State.setSp (s : State) (v : Byte) : State := { s with sp := v }

/-- `PC <- t`. -/
def State.setPc (s : State) (t : Word) : State := { s with pc := t }

/-- `SetZN(v)` (40 R109). -/
def State.setZN (s : State) (v : Byte) : State := s.setP (flagsZN s.p v)

/-- `P.f <- b`. -/
def State.setFlag (s : State) (f : Flag) (b : Bool) : State := s.setP (putFlag s.p f b)

/-- Write a general register and set Z and N from the value written: every instruction that writes A, X or Y does both
(10_state R21 to R23). -/
def State.loadReg (s : State) (r : Reg) (v : Byte) : State := (s.setReg r v).setZN v

/-- `PC <- CTX.start + len`, the length being the operation's (40 R115). -/
def State.advance (s : State) (op : Op) : State := s.setPc (s.start + BitVec.ofNat 16 op.length)

/-! ## The stack -/

/-- The base of the stack page (00_scope R5). -/
def stackBase : Word := 0x0100

/-- The stack location SP names, `0x0100 + SP` (10_state R25). -/
def stackAddr (sp : Byte) : Word := stackBase + sp.setWidth 16

/-- `Push(v)`: write, then decrement (20_memory R61). -/
def State.push (s : State) (v : Byte) : State :=
  let s1 := s.memWrite (stackAddr s.sp) v
  s1.setSp (s1.sp - 1)

/-- `Pop()`: increment, then read (20_memory R62). -/
def State.pop (s : State) : Byte × State :=
  let s1 := s.setSp (s.sp + 1)
  s1.memRead1 (stackAddr s1.sp)

/-! ## Starting a step, and taking the fault -/

/-- The start of a step: a fresh context anchored at PC replaces the previous one (40 R102). The outputs of the previous step
are withdrawn (log 3). -/
def State.openStep (s : State) : State :=
  { s with ctx := some { start := s.pc, desc := none, ops := [], cycles := 0 }, event := .none, trace := none }

/-- Taking `UnknownOpcode(IR, PC)` at the lookup of a step whose context is open: RUN becomes `Faulted(IR, PC)` and nothing
else changes; nothing is saved and control goes nowhere (60 R230, R233). -/
def State.takeUnknownOpcode (s : State) : State := { s with run := .faulted s.ir s.pc }

/-- The sentinel's effect: RUN becomes `Halted` (44 R175, 40 R106). -/
def State.halt (s : State) : State := { s with run := .halted }

end Sys2Proof.Machine
end

