-- ==== Sys2Proof/Machine/Breakpoint.lean ====
section
/-!
DEFINITION. The condition breakpoint evaluator (48_breakpoint_evaluator): building sets, observing elements, the fire test,
and the evaluation of the sets in registration order.
-/

namespace Sys2Proof.Machine

open Sys2Proof

/-- `NewSet(count, label)`: no conditions yet, the counter at the trigger count (48 R204). -/
def newSet (count : Int := 1) (label : Option String := none) : BreakSet :=
  { conds := [], counter := count, label := label }

/-- `Append(set, elem, val)`: a condition at the end (48 R204). -/
def BreakSet.append (b : BreakSet) (e : Elem) (v : Nat) : BreakSet := { b with conds := b.conds ++ [(e, v)] }

/-- `Register(manager, set)`: the set at the end (48 R204). -/
def Bpm.register (m : Bpm) (b : BreakSet) : Bpm := { m with sets := m.sets ++ [b] }

/-- The raw value of a flag element: 0 or the flag's mask (48 R206). -/
def rawFlag (p : Byte) (f : Flag) : Nat := (p &&& f.mask).toNat

/-- `Observe(elem)`, at the check point of a step (48 R206). -/
def observe (s : State) : Elem → Nat
  | .opcode => s.ir.toNat
  | .pc => s.start.toNat
  | .a => s.a.toNat
  | .x => s.x.toNat
  | .y => s.y.toNat
  | .sp => s.sp.toNat
  | .c => rawFlag s.p .c
  | .z => rawFlag s.p .z
  | .i => rawFlag s.p .i
  | .d => rawFlag s.p .d
  | .v => rawFlag s.p .v
  | .n => rawFlag s.p .n

/-- Every condition of the set matches what is observed (48 R208). -/
def BreakSet.allMatch (obs : Elem → Nat) (b : BreakSet) : Bool := b.conds.all (fun c => obs c.1 == c.2)

/-- `FireTest(set)`: a set whose conditions all match has its counter decremented, and fires exactly when that makes the
counter zero (48 R207, R208). -/
def BreakSet.fireTest (obs : Elem → Nat) (b : BreakSet) : BreakSet × Bool :=
  if b.allMatch obs then ({ b with counter := b.counter - 1 }, b.counter - 1 == 0) else (b, false)

/-- `Evaluate` over the sets from index `k` on: the sets after it and the index of the first that fires; sets after that one
are not tested (48 R207). -/
def evaluate (obs : Elem → Nat) : Nat → List BreakSet → List BreakSet × Option Nat
  | _, [] => ([], none)
  | k, b :: bs =>
    if (b.fireTest obs).2 then ((b.fireTest obs).1 :: bs, some k)
    else ((b.fireTest obs).1 :: (evaluate obs (k + 1) bs).1, (evaluate obs (k + 1) bs).2)

/-- The event of a step: a halt request when single step is on or a set fired (48 R211). -/
def stepEvent (singleStep : Bool) (fired : Option Nat) : Event :=
  if singleStep || fired.isSome then .haltRequested fired else .none

/-- The check of a step (40 R105): the evaluator is called once and its counters kept, and the event set. -/
def State.check (s : State) : State :=
  let r := evaluate (observe s) 0 s.bpm.sets
  { s with bpm := { s.bpm with sets := r.1 }, event := stepEvent s.bpm.singleStep r.2 }

end Sys2Proof.Machine
end

