-- ==== Sys2Proof/Machine/Operands.lean ====
section
/-!
DEFINITION. Every operand form of the machine: immediate, the effective addresses of 40_execution_loop section 4, the
indirect target of JMP and the relative offset of BNE. Each answers its value or address with the state in which the cycle
units of the reads it makes are charged. An operand byte itself was read by the fetch of the instruction's bytes (Loop.lean,
92 D12); its cycle unit is charged here.
-/

namespace Sys2Proof.Machine

open Sys2Proof

/-- `zext_16` (00_scope R8). -/
def zext16 (v : Byte) : Word := v.setWidth 16

/-- `sext_16` (00_scope R8). -/
def sext16 (v : Byte) : Word := v.signExtend 16

/-- IMM: the operand byte, one cycle unit (40 R110). -/
def State.immOperand (s : State) (imm : Byte) : Byte × State := (imm, s.charge 1)

/-- ABS: the 16-bit operand, two cycle units (40 R111). Also the target of JMP ABS and JSR and the pointer of JMP IND. -/
def State.absAddr (s : State) (addr : Word) : Word × State := (addr, s.charge 2)

/-- ABX: the operand plus X, modulo 65536 (40 R112). -/
def State.abxAddr (s : State) (addr : Word) : Word × State := (addr + zext16 s.x, s.charge 2)

/-- ABY: the operand plus Y, modulo 65536 (40 R112). -/
def State.abyAddr (s : State) (addr : Word) : Word × State := (addr + zext16 s.y, s.charge 2)

/-- The pointer at page-zero address `zp` when `ZP_WRAP` is true: its high byte comes from `(zp + 1) mod 256`; two cycle
units (40 R113, R114). -/
def State.zpWord (s : State) (zp : Byte) : Word × State :=
  (wordOf (s.byteAt (zext16 zp)) (s.byteAt (zext16 (zp + 1))), s.charge 2)

/-- IZX: the pointer read at `zp + X`, that sum wrapping at 16 bits, or at 8 under `ZP_WRAP` (40 R113). -/
def State.izxAddr (s : State) (zp : Byte) : Word × State :=
  let s1 := s.charge 1
  if s1.cfg.zpWrap then s1.zpWord (zp + s1.x) else s1.memRead2 (zext16 zp + zext16 s1.x)

/-- IZY: the pointer read at `zp`, plus Y modulo 65536 (40 R114). -/
def State.izyAddr (s : State) (zp : Byte) : Word × State :=
  let s1 := s.charge 1
  let b := if s1.cfg.zpWrap then s1.zpWord zp else s1.memRead2 (zext16 zp)
  (b.1 + zext16 b.2.y, b.2)

/-- IND: the target is the word at the pointer, with no page wrap (44 R172). -/
def State.indTarget (s : State) (ptr : Word) : Word × State :=
  let q := s.absAddr ptr
  q.2.memRead2 q.1

/-- REL: the target `s + 2 + sext_16(rel8)`; the offset byte is read, one cycle unit, taken or not (44 R170). -/
def State.relTarget (s : State) (rel : Byte) : Word × State :=
  (s.start + BitVec.ofNat 16 Op.bne.length + sext16 rel, s.charge 1)

/-! ## What the loads and stores do with a value or an address -/

/-- Load register `r` with a byte, set Z and N, advance (41 R130 and the like). -/
def loadValue (op : Op) (r : Reg) (v : Byte × State) : Result := .next ((v.2.loadReg r v.1).advance op)

/-- Load register `r` with the byte at an effective address (41 R131 and the like). -/
def loadFrom (op : Op) (r : Reg) (ea : Word × State) : Result := loadValue op r (ea.2.memRead1 ea.1)

/-- Store register `r` at an effective address; no flag changes (41 R142, R143). -/
def storeTo (op : Op) (r : Reg) (ea : Word × State) : Result := .next ((ea.2.memWrite ea.1 (ea.2.reg r)).advance op)

end Sys2Proof.Machine
end

