-- ==== Sys2Proof/Machine/Arith.lean ====
section
/-!
DEFINITION. The one arithmetic instruction (45_adc).
-/

namespace Sys2Proof.Machine

open Sys2Proof

/-- ADC absolute: A takes A + M + C modulo 256, Z and N are set of it; C and V are not written, D is not read (R180). -/
def execAdcAbs (addr : Word) (s : State) : Result :=
  let ea := s.absAddr addr
  let m := ea.2.memRead1 ea.1
  loadValue .adcAbs .a (m.2.a + m.1 + carryIn m.2.p, m.2)

end Sys2Proof.Machine
end

