-- ==== Sys2Proof/Machine/Control.lean ====
section
/-!
DEFINITION. Control transfer and the halt sentinel (44_branch_jump_call).
-/

namespace Sys2Proof.Machine

open Sys2Proof

/-- BNE: the offset is read; if Z is clear PC goes to the target and one more cycle unit is charged, else PC passes the
instruction (R170). -/
def execBne (rel : Byte) (s : State) : Result :=
  let t := s.relTarget rel
  if flagOf s.p .z then .next (t.2.advance .bne) else .next ((t.2.setPc t.1).charge 1)

/-- JMP absolute: PC takes the operand (R171). -/
def execJmpAbs (addr : Word) (s : State) : Result :=
  let t := s.absAddr addr
  .next (t.2.setPc t.1)

/-- JMP indirect: PC takes the word at the pointer (R172). -/
def execJmpInd (ptr : Word) (s : State) : Result :=
  let t := s.indTarget ptr
  .next (t.2.setPc t.1)

/-- JSR: the target is read first, then `start + 2` is pushed, low byte first, then PC takes the target (R173). -/
def execJsr (addr : Word) (s : State) : Result :=
  let t := s.absAddr addr
  let s1 := t.2.advance .jsr
  let ret1 := s1.pc - 1
  let s2 := s1.push (loByte ret1)
  let s3 := s2.push (hiByte ret1)
  .next (s3.setPc t.1)

/-- RTS: pops the high byte, then the low byte; PC takes that value plus one (R174). -/
def execRts (s : State) : Result :=
  let hi := s.pop
  let lo := hi.2.pop
  .next (lo.2.setPc (wordOf lo.1 hi.1 + 1))

/-- The sentinel 0x00: RUN becomes `Halted`; no other effect (R175). In a run the sentinel takes effect in the fetch that
loads it (`State.fetchNext`) and is never executed; this arm is reached only from a running state whose IR is already 0x00,
which the invariant of 10_state R34 excludes. DEDUCED, safe (log 14). -/
def execHlt (s : State) : Result := .next s.halt

end Sys2Proof.Machine
end

