-- ==== Sys2Proof/Machine/FlagNop.lean ====
section
/-!
DEFINITION. The flag set and clear family and NOP (43_flag_nop).
-/

namespace Sys2Proof.Machine

open Sys2Proof

/-- An instruction that writes one flag and advances. -/
def writeFlag (op : Op) (f : Flag) (b : Bool) (s : State) : Result := .next ((s.setFlag f b).advance op)

/-- CLC: `P.C <- 0` (R160). -/
def execClc (s : State) : Result := writeFlag .clc .c false s

/-- SEC: `P.C <- 1` (R161). -/
def execSec (s : State) : Result := writeFlag .sec .c true s

/-- CLI: `P.I <- 0` (R162). -/
def execCli (s : State) : Result := writeFlag .cli .i false s

/-- SEI: `P.I <- 1` (R163). -/
def execSei (s : State) : Result := writeFlag .sei .i true s

/-- CLD: `P.D <- 0` (R164). -/
def execCld (s : State) : Result := writeFlag .cld .d false s

/-- SED: `P.D <- 1` (R165). -/
def execSed (s : State) : Result := writeFlag .sed .d true s

/-- CLV: `P.V <- 0` (R166). -/
def execClv (s : State) : Result := writeFlag .clv .v false s

/-- NOP: PC only (R167). -/
def execNop (s : State) : Result := .next (s.advance .nop)

end Sys2Proof.Machine
end

