-- ==== Sys2Proof/Machine/IncDecTransfer.lean ====
section
/-!
DEFINITION. The increment, decrement and transfer family (42_incdec_transfer).
-/

namespace Sys2Proof.Machine

open Sys2Proof

/-- An instruction without operand that gives register `r` the value `v`, sets Z and N of it and advances. -/
def setAndAdvance (op : Op) (r : Reg) (v : Byte) (s : State) : Result := .next ((s.loadReg r v).advance op)

/-- INX: X plus one modulo 256 (R150). -/
def execInx (s : State) : Result := setAndAdvance .inx .x (s.x + 1) s

/-- INY: Y plus one modulo 256 (R151). -/
def execIny (s : State) : Result := setAndAdvance .iny .y (s.y + 1) s

/-- DEX: X minus one modulo 256 (R152). -/
def execDex (s : State) : Result := setAndAdvance .dex .x (s.x - 1) s

/-- DEY: Y minus one modulo 256 (R153). -/
def execDey (s : State) : Result := setAndAdvance .dey .y (s.y - 1) s

/-- TAX: X takes A (R154). -/
def execTax (s : State) : Result := setAndAdvance .tax .x s.a s

/-- TXA: A takes X (R155). -/
def execTxa (s : State) : Result := setAndAdvance .txa .a s.x s

/-- TAY: Y takes A (R156). -/
def execTay (s : State) : Result := setAndAdvance .tay .y s.a s

/-- TYA: A takes Y (R157). -/
def execTya (s : State) : Result := setAndAdvance .tya .a s.y s

end Sys2Proof.Machine
end

