-- ==== Sys2Proof/Machine/LoadStore.lean ====
section
/-!
DEFINITION. The load and store family (41_load_store).
-/

namespace Sys2Proof.Machine

open Sys2Proof

/-- LDA immediate (R130). -/
def execLdaImm (imm : Byte) (s : State) : Result := loadValue .ldaImm .a (s.immOperand imm)

/-- LDA absolute (R131). -/
def execLdaAbs (addr : Word) (s : State) : Result := loadFrom .ldaAbs .a (s.absAddr addr)

/-- LDA absolute,X (R132). -/
def execLdaAbx (addr : Word) (s : State) : Result := loadFrom .ldaAbx .a (s.abxAddr addr)

/-- LDA absolute,Y (R133). -/
def execLdaAby (addr : Word) (s : State) : Result := loadFrom .ldaAby .a (s.abyAddr addr)

/-- LDA (zp,X) (R134). -/
def execLdaIzx (zp : Byte) (s : State) : Result := loadFrom .ldaIzx .a (s.izxAddr zp)

/-- LDA (zp),Y (R135). -/
def execLdaIzy (zp : Byte) (s : State) : Result := loadFrom .ldaIzy .a (s.izyAddr zp)

/-- LDX immediate (R136). -/
def execLdxImm (imm : Byte) (s : State) : Result := loadValue .ldxImm .x (s.immOperand imm)

/-- LDX absolute (R137). -/
def execLdxAbs (addr : Word) (s : State) : Result := loadFrom .ldxAbs .x (s.absAddr addr)

/-- LDX absolute,Y (R138). -/
def execLdxAby (addr : Word) (s : State) : Result := loadFrom .ldxAby .x (s.abyAddr addr)

/-- LDY immediate (R139). -/
def execLdyImm (imm : Byte) (s : State) : Result := loadValue .ldyImm .y (s.immOperand imm)

/-- LDY absolute (R140). -/
def execLdyAbs (addr : Word) (s : State) : Result := loadFrom .ldyAbs .y (s.absAddr addr)

/-- LDY absolute,X (R141). -/
def execLdyAbx (addr : Word) (s : State) : Result := loadFrom .ldyAbx .y (s.abxAddr addr)

/-- STA absolute (R142). -/
def execStaAbs (addr : Word) (s : State) : Result := storeTo .staAbs .a (s.absAddr addr)

/-- STX absolute (R143). -/
def execStxAbs (addr : Word) (s : State) : Result := storeTo .stxAbs .x (s.absAddr addr)

end Sys2Proof.Machine
end

