-- ==== Sys2Proof/Machine/Loop.lean ====
section
/-!
DEFINITION. The fetch-decode-execute loop (40_execution_loop): reading an instruction's bytes, opening its context, what
follows its execution, and one whole instruction step. Step.lean only calls this file.
-/

namespace Sys2Proof.Machine

open Sys2Proof

/-- The bytes of the instruction about to execute: the opcode from IR, which was fetched at the end of the step before or
forced by reset, and the operand bytes at PC + 1 and PC + 2 (30_encoding R80, R82; 40 R101). -/
def State.instrBytes (s : State) : List Byte := [s.ir, s.byteAt (s.pc + 1), s.byteAt (s.pc + 2)]

/-- The instruction about to execute (40 R101, R103). -/
def State.instrAhead (s : State) : Except DecodeError Instr :=
  match decode s.cfg.table s.instrBytes with
  | .ok (i, _) => .ok i
  | .error e => .error e

/-- A found instruction's context: its descriptor, and the operand bytes captured for display (40 R101 step 2, R116). -/
def State.openInstr (s : State) (i : Instr) : State :=
  { s with ctx := some { start := s.pc, desc := lookup s.cfg.table s.ir, ops := i.operandBytes, cycles := 0 },
           event := .none, trace := none }

/-- What is exposed to the trace renderer at the check point (40 R118). -/
def State.traceRow (s : State) : Option TraceRow :=
  s.ctx.map (fun c =>
    { start := c.start, opcode := s.ir, ops := c.ops, a := s.a, x := s.x, y := s.y, sp := s.sp, p := s.p, pc := s.pc,
      desc := c.desc, cycles := c.cycles })

/-- The trace output is set and the context destroyed, "after the trace/breakpoint check" (10_state R36). -/
def State.closeCtx (s : State) : State := { s with trace := s.traceRow, ctx := none }

/-- The fetch that ends a step, and the sentinel test: `IR <- MEM[PC]`; RUN becomes `Halted` if that is 0x00 (40 R106). -/
def State.fetchNext (s : State) : State :=
  let s1 : State := { s with ir := s.byteAt s.pc }
  if s1.ir = haltOpcode then s1.halt else s1

/-- What follows an instruction's execution in its step: the check, the end of the context, the next fetch (40 R101). -/
def State.finishStep (s : State) : State := s.check.closeCtx.fetchNext

/-- The rest of a step after `execute`. -/
def finishResult : Result → Result
  | .next s => .next s.finishStep
  | .fault f => .fault f
  | .refused r => .refused r

/-- One instruction step of a running machine (40 R101): an unknown opcode faults before anything else changes; the sentinel
ends the run; any other instruction is executed and the step finished. -/
def stepRunning (s : State) : Result :=
  match s.instrAhead with
  | .error _ => .next s.openStep.takeUnknownOpcode
  | .ok .hlt => exec .hlt { s with event := .none, trace := none }
  | .ok i => finishResult (exec i (s.openInstr i))

/-- One step: a running machine takes an instruction step; the other three run states have none (10_state R37). -/
def stepMachine (s : State) : Result :=
  match s.run with
  | .running => stepRunning s
  | .off => .fault .notReset
  | .halted => .fault .halted
  | .faulted op pc => .fault (.unknownOpcode op pc)

/-- Bytes stored at consecutive addresses modulo 65536 (20_memory R58). -/
def State.pokeBytes (s : State) (addr : Word) : List Byte → State
  | [] => s
  | b :: bs => (s.poke addr b).pokeBytes (addr + 1) bs

/-- The instruction of a table word placed where the next step takes its instruction: its bytes at PC, its opcode byte in IR
as the fetch that ends a step would leave it, RUN running (log 15). -/
def State.placeTableWord (s : State) (nbits w : Nat) : State :=
  { s.pokeBytes s.pc (tableBytes nbits w) with ir := tableByte nbits w 0, run := .running }

end Sys2Proof.Machine
end

