-- ==== Sys2Proof/Machine/Step.lean ====
section
/-!
DEFINITION. One step of the machine, and the placing of an instruction where the next step takes it.
-/

namespace Sys2Proof.Machine

open Sys2Proof

/-- One step (40_execution_loop R101). -/
def step (s : State) : Host.Outcome State Fault Refusal := stepMachine s

/-- The state with the instruction of a table word placed so that the very next step runs exactly it (log 15). -/
def State.withFetchWord (s : State) (nbits w : Nat) : State := s.placeTableWord nbits w

end Sys2Proof.Machine
end

