-- ==== Sys2Proof/Machine/HostOps.lean ====
section
/-!
DEFINITION. What the host may do to the machine besides a step (70_reset_and_hazards R260 to R268, 92 D22): creation, the
reset operation, the load port, registering breakpoint sets, writing the single-step flag, each where R266 opens it; and a
run to completion (40_execution_loop R107).
-/

namespace Sys2Proof.Machine

open Sys2Proof

/-- The machine just created (70 R268): memory all zero, RUN `Off`, no sets, single step off, no context. The values of the
registers are arbitrary there, so they are arguments (92 D5; log 6). -/
def State.created (cfg : Config) (a x y sp p ir : Byte) (pc : Word) : State where
  a := a
  x := x
  y := y
  sp := sp
  p := p
  pc := pc
  ir := ir
  mem := []
  ctx := none
  run := .off
  bpm := { sets := [], singleStep := false }
  cfg := cfg
  event := .none
  trace := none

/-- The JMP-absolute opcode that reset forces: 0x4C in the default map (70 R260). A table without JMP, which D1 excludes,
falls back to 0x4C. -/
def Config.jmpOpcode (c : Config) : Byte := (opcodeOf c.table .jmpAbs).getD 0x4C

/-- The reset operation, one atomic operation (70 R260, R262, R263): PC, IR, SP, P and RUN are written; A, X, Y, memory and
the breakpoint manager are not (R264). The outputs of the last step are withdrawn (log 3). -/
def State.resetOp (s : State) : State :=
  { s with pc := s.cfg.resetVector - 1, ir := Config.jmpOpcode s.cfg, sp := 0xFF, p := 0x00, run := .running, ctx := none,
           event := .none, trace := none }

/-- The moves of the host other than a step (70 R266). -/
inductive HostMove where
  /-- `loadProgram(addr, bytes)` (20_memory R58). -/
  | loadProgram (addr : Word) (bytes : List Byte)
  /-- `Register(manager, set)` of a set built by `newSet` and `BreakSet.append` (48 R204). -/
  | register (b : BreakSet)
  /-- Write `BPM.single_step` (48 R212). -/
  | setSingleStep (b : Bool)
  /-- The reset operation (70 R260). -/
  | reset
  deriving DecidableEq, Repr

/-- Whether R266 opens a move in a run state. -/
def HostMove.isOpen (m : HostMove) (r : RunState) : Bool :=
  match m, r with
  | .loadProgram _ _, .off => true
  | .loadProgram _ _, _ => false
  | .register _, .off => true
  | .register _, _ => false
  | .setSingleStep _, .off => true
  | .setSingleStep _, .running => true
  | .setSingleStep _, _ => false
  | .reset, _ => true

/-- The effect of an open move. -/
def HostMove.apply (m : HostMove) (s : State) : State :=
  match m with
  | .loadProgram addr bytes => s.pokeBytes addr bytes
  | .register b => { s with bpm := s.bpm.register b }
  | .setSingleStep b => { s with bpm := { s.bpm with singleStep := b } }
  | .reset => s.resetOp

/-- A move of the host: its effect where R266 opens it, else refused, for no such move exists (93 U27; log 11). -/
def hostMove (m : HostMove) (s : State) : Result :=
  if m.isOpen s.run then .next (m.apply s) else .refused .hostMoveNotOpen

/-- Steps repeated until the machine is no longer running, at most `fuel` of them, collecting the events (40 R107). -/
def runSteps : Nat → State → List Event × State
  | 0, s => ([], s)
  | k + 1, s =>
    if s.run = .running then
      match step s with
      | .next t => ((if t.run matches .faulted _ _ then [] else [t.event]) ++ (runSteps k t).1, (runSteps k t).2)
      | _ => ([], s)
    else ([], s)

/-- `Run()`: reset, then steps to the end of the run, at most `fuel` of them (40 R107). -/
def runSession (fuel : Nat) (s : State) : List Event × State := runSteps fuel s.resetOp

end Sys2Proof.Machine
end

