-- ==== Sys2Proof/Safety.lean ====
section
/-!
DEFINITION. What counts as a good state between steps and as the end of a run, in the terms that the claims use.
-/

namespace Sys2Proof.Machine

open Sys2Proof

/-- The run state is `Faulted`. -/
def RunState.isFaulted : RunState → Bool
  | .faulted _ _ => true
  | _ => false

/-- A faulted machine still holds what the fault names: the unknown opcode in IR and its address in PC (60 R230). -/
def State.faultRecorded (s : State) : Bool :=
  match s.run with
  | .faulted op pc => op == s.ir && pc == s.pc && s.ir != haltOpcode && (findRow s.cfg.table s.ir).isNone
  | _ => true

/-- The invariant of the loop between steps: memory is canonical; the table meets D1; a running machine holds no sentinel
in IR and a halted one does, at the address PC names (10_state R34, 60 R244); bits 4, 5 and 6 of P are 0 after reset
(40 R119 (e)); a context outlives its step only through a fault; a fault is recorded with what it found. The model's own in it are the form of
memory (log 20), one row per operation in the table (log 18), the fault as a state (log 4) and its context (log 16). -/
abbrev State.Inv (s : State) : Prop :=
  Memory.wf s.mem ∧ s.cfg.wf = true ∧
  (s.run = .running → s.ir ≠ haltOpcode) ∧
  (s.run = .halted → s.ir = haltOpcode ∧ s.byteAt s.pc = haltOpcode) ∧
  (s.run ≠ .off → s.p &&& 0x70 = 0) ∧
  (s.run.isFaulted = false → s.ctx = none) ∧
  s.faultRecorded = true

/-- The run has ended: normally (`Halted`) or by the fault (`Faulted`) (60 R244). -/
def State.ended (s : State) : Bool := decide (s.run = .halted) || s.run.isFaulted

/-- The states that a session reaches: creation, then steps and open host moves in any order (40 R100, 70 R266). -/
inductive Reachable : State → Prop where
  | created (cfg : Config) (a x y sp p ir : Byte) (pc : Word) (h : cfg.wf = true) :
      Reachable (State.created cfg a x y sp p ir pc)
  | move {s t : State} (m : HostMove) (hs : Reachable s) (h : hostMove m s = .next t) : Reachable t
  | step {s t : State} (hs : Reachable s) (h : step s = .next t) : Reachable t

end Sys2Proof.Machine
end

