-- ==== Sys2Proof/Laws/State.lean ====
section
/-!
SUPPORT. One lemma per field per update of the state, so that no proof unfolds a record update.
-/

namespace Sys2Proof.Machine

open Sys2Proof

@[simp] theorem State.setP_a (s : State) (v : Byte) : (s.setP v).a = s.a := rfl
@[simp] theorem State.setP_x (s : State) (v : Byte) : (s.setP v).x = s.x := rfl
@[simp] theorem State.setP_y (s : State) (v : Byte) : (s.setP v).y = s.y := rfl
@[simp] theorem State.setP_sp (s : State) (v : Byte) : (s.setP v).sp = s.sp := rfl
@[simp] theorem State.setP_p (s : State) (v : Byte) : (s.setP v).p = v := rfl
@[simp] theorem State.setP_pc (s : State) (v : Byte) : (s.setP v).pc = s.pc := rfl
@[simp] theorem State.setP_ir (s : State) (v : Byte) : (s.setP v).ir = s.ir := rfl
@[simp] theorem State.setP_mem (s : State) (v : Byte) : (s.setP v).mem = s.mem := rfl
@[simp] theorem State.setP_ctx (s : State) (v : Byte) : (s.setP v).ctx = s.ctx := rfl
@[simp] theorem State.setP_run (s : State) (v : Byte) : (s.setP v).run = s.run := rfl
@[simp] theorem State.setP_bpm (s : State) (v : Byte) : (s.setP v).bpm = s.bpm := rfl
@[simp] theorem State.setP_cfg (s : State) (v : Byte) : (s.setP v).cfg = s.cfg := rfl
@[simp] theorem State.setP_event (s : State) (v : Byte) : (s.setP v).event = s.event := rfl
@[simp] theorem State.setP_trace (s : State) (v : Byte) : (s.setP v).trace = s.trace := rfl

@[simp] theorem State.setSp_a (s : State) (v : Byte) : (s.setSp v).a = s.a := rfl
@[simp] theorem State.setSp_x (s : State) (v : Byte) : (s.setSp v).x = s.x := rfl
@[simp] theorem State.setSp_y (s : State) (v : Byte) : (s.setSp v).y = s.y := rfl
@[simp] theorem State.setSp_sp (s : State) (v : Byte) : (s.setSp v).sp = v := rfl
@[simp] theorem State.setSp_p (s : State) (v : Byte) : (s.setSp v).p = s.p := rfl
@[simp] theorem State.setSp_pc (s : State) (v : Byte) : (s.setSp v).pc = s.pc := rfl
@[simp] theorem State.setSp_ir (s : State) (v : Byte) : (s.setSp v).ir = s.ir := rfl
@[simp] theorem State.setSp_mem (s : State) (v : Byte) : (s.setSp v).mem = s.mem := rfl
@[simp] theorem State.setSp_ctx (s : State) (v : Byte) : (s.setSp v).ctx = s.ctx := rfl
@[simp] theorem State.setSp_run (s : State) (v : Byte) : (s.setSp v).run = s.run := rfl
@[simp] theorem State.setSp_bpm (s : State) (v : Byte) : (s.setSp v).bpm = s.bpm := rfl
@[simp] theorem State.setSp_cfg (s : State) (v : Byte) : (s.setSp v).cfg = s.cfg := rfl
@[simp] theorem State.setSp_event (s : State) (v : Byte) : (s.setSp v).event = s.event := rfl
@[simp] theorem State.setSp_trace (s : State) (v : Byte) : (s.setSp v).trace = s.trace := rfl

@[simp] theorem State.setPc_a (s : State) (v : Word) : (s.setPc v).a = s.a := rfl
@[simp] theorem State.setPc_x (s : State) (v : Word) : (s.setPc v).x = s.x := rfl
@[simp] theorem State.setPc_y (s : State) (v : Word) : (s.setPc v).y = s.y := rfl
@[simp] theorem State.setPc_sp (s : State) (v : Word) : (s.setPc v).sp = s.sp := rfl
@[simp] theorem State.setPc_p (s : State) (v : Word) : (s.setPc v).p = s.p := rfl
@[simp] theorem State.setPc_pc (s : State) (v : Word) : (s.setPc v).pc = v := rfl
@[simp] theorem State.setPc_ir (s : State) (v : Word) : (s.setPc v).ir = s.ir := rfl
@[simp] theorem State.setPc_mem (s : State) (v : Word) : (s.setPc v).mem = s.mem := rfl
@[simp] theorem State.setPc_ctx (s : State) (v : Word) : (s.setPc v).ctx = s.ctx := rfl
@[simp] theorem State.setPc_run (s : State) (v : Word) : (s.setPc v).run = s.run := rfl
@[simp] theorem State.setPc_bpm (s : State) (v : Word) : (s.setPc v).bpm = s.bpm := rfl
@[simp] theorem State.setPc_cfg (s : State) (v : Word) : (s.setPc v).cfg = s.cfg := rfl
@[simp] theorem State.setPc_event (s : State) (v : Word) : (s.setPc v).event = s.event := rfl
@[simp] theorem State.setPc_trace (s : State) (v : Word) : (s.setPc v).trace = s.trace := rfl

@[simp] theorem State.poke_a (s : State) (k : Word) (v : Byte) : (s.poke k v).a = s.a := rfl
@[simp] theorem State.poke_x (s : State) (k : Word) (v : Byte) : (s.poke k v).x = s.x := rfl
@[simp] theorem State.poke_y (s : State) (k : Word) (v : Byte) : (s.poke k v).y = s.y := rfl
@[simp] theorem State.poke_sp (s : State) (k : Word) (v : Byte) : (s.poke k v).sp = s.sp := rfl
@[simp] theorem State.poke_p (s : State) (k : Word) (v : Byte) : (s.poke k v).p = s.p := rfl
@[simp] theorem State.poke_pc (s : State) (k : Word) (v : Byte) : (s.poke k v).pc = s.pc := rfl
@[simp] theorem State.poke_ir (s : State) (k : Word) (v : Byte) : (s.poke k v).ir = s.ir := rfl
@[simp] theorem State.poke_mem (s : State) (k : Word) (v : Byte) : (s.poke k v).mem = Memory.writeAt s.mem k.toNat v := rfl
@[simp] theorem State.poke_ctx (s : State) (k : Word) (v : Byte) : (s.poke k v).ctx = s.ctx := rfl
@[simp] theorem State.poke_run (s : State) (k : Word) (v : Byte) : (s.poke k v).run = s.run := rfl
@[simp] theorem State.poke_bpm (s : State) (k : Word) (v : Byte) : (s.poke k v).bpm = s.bpm := rfl
@[simp] theorem State.poke_cfg (s : State) (k : Word) (v : Byte) : (s.poke k v).cfg = s.cfg := rfl
@[simp] theorem State.poke_event (s : State) (k : Word) (v : Byte) : (s.poke k v).event = s.event := rfl
@[simp] theorem State.poke_trace (s : State) (k : Word) (v : Byte) : (s.poke k v).trace = s.trace := rfl

@[simp] theorem State.charge_a (s : State) (n : Nat) : (s.charge n).a = s.a := rfl
@[simp] theorem State.charge_x (s : State) (n : Nat) : (s.charge n).x = s.x := rfl
@[simp] theorem State.charge_y (s : State) (n : Nat) : (s.charge n).y = s.y := rfl
@[simp] theorem State.charge_sp (s : State) (n : Nat) : (s.charge n).sp = s.sp := rfl
@[simp] theorem State.charge_p (s : State) (n : Nat) : (s.charge n).p = s.p := rfl
@[simp] theorem State.charge_pc (s : State) (n : Nat) : (s.charge n).pc = s.pc := rfl
@[simp] theorem State.charge_ir (s : State) (n : Nat) : (s.charge n).ir = s.ir := rfl
@[simp] theorem State.charge_mem (s : State) (n : Nat) : (s.charge n).mem = s.mem := rfl
@[simp] theorem State.charge_ctx (s : State) (n : Nat) : (s.charge n).ctx = s.ctx.map (fun c => { c with cycles := c.cycles + n }) := rfl
@[simp] theorem State.charge_run (s : State) (n : Nat) : (s.charge n).run = s.run := rfl
@[simp] theorem State.charge_bpm (s : State) (n : Nat) : (s.charge n).bpm = s.bpm := rfl
@[simp] theorem State.charge_cfg (s : State) (n : Nat) : (s.charge n).cfg = s.cfg := rfl
@[simp] theorem State.charge_event (s : State) (n : Nat) : (s.charge n).event = s.event := rfl
@[simp] theorem State.charge_trace (s : State) (n : Nat) : (s.charge n).trace = s.trace := rfl

@[simp] theorem State.halt_a (s : State) : (s.halt).a = s.a := rfl
@[simp] theorem State.halt_x (s : State) : (s.halt).x = s.x := rfl
@[simp] theorem State.halt_y (s : State) : (s.halt).y = s.y := rfl
@[simp] theorem State.halt_sp (s : State) : (s.halt).sp = s.sp := rfl
@[simp] theorem State.halt_p (s : State) : (s.halt).p = s.p := rfl
@[simp] theorem State.halt_pc (s : State) : (s.halt).pc = s.pc := rfl
@[simp] theorem State.halt_ir (s : State) : (s.halt).ir = s.ir := rfl
@[simp] theorem State.halt_mem (s : State) : (s.halt).mem = s.mem := rfl
@[simp] theorem State.halt_ctx (s : State) : (s.halt).ctx = s.ctx := rfl
@[simp] theorem State.halt_run (s : State) : (s.halt).run = .halted := rfl
@[simp] theorem State.halt_bpm (s : State) : (s.halt).bpm = s.bpm := rfl
@[simp] theorem State.halt_cfg (s : State) : (s.halt).cfg = s.cfg := rfl
@[simp] theorem State.halt_event (s : State) : (s.halt).event = s.event := rfl
@[simp] theorem State.halt_trace (s : State) : (s.halt).trace = s.trace := rfl

@[simp] theorem State.takeUnknownOpcode_a (s : State) : (s.takeUnknownOpcode).a = s.a := rfl
@[simp] theorem State.takeUnknownOpcode_x (s : State) : (s.takeUnknownOpcode).x = s.x := rfl
@[simp] theorem State.takeUnknownOpcode_y (s : State) : (s.takeUnknownOpcode).y = s.y := rfl
@[simp] theorem State.takeUnknownOpcode_sp (s : State) : (s.takeUnknownOpcode).sp = s.sp := rfl
@[simp] theorem State.takeUnknownOpcode_p (s : State) : (s.takeUnknownOpcode).p = s.p := rfl
@[simp] theorem State.takeUnknownOpcode_pc (s : State) : (s.takeUnknownOpcode).pc = s.pc := rfl
@[simp] theorem State.takeUnknownOpcode_ir (s : State) : (s.takeUnknownOpcode).ir = s.ir := rfl
@[simp] theorem State.takeUnknownOpcode_mem (s : State) : (s.takeUnknownOpcode).mem = s.mem := rfl
@[simp] theorem State.takeUnknownOpcode_ctx (s : State) : (s.takeUnknownOpcode).ctx = s.ctx := rfl
@[simp] theorem State.takeUnknownOpcode_run (s : State) : (s.takeUnknownOpcode).run = .faulted s.ir s.pc := rfl
@[simp] theorem State.takeUnknownOpcode_bpm (s : State) : (s.takeUnknownOpcode).bpm = s.bpm := rfl
@[simp] theorem State.takeUnknownOpcode_cfg (s : State) : (s.takeUnknownOpcode).cfg = s.cfg := rfl
@[simp] theorem State.takeUnknownOpcode_event (s : State) : (s.takeUnknownOpcode).event = s.event := rfl
@[simp] theorem State.takeUnknownOpcode_trace (s : State) : (s.takeUnknownOpcode).trace = s.trace := rfl

@[simp] theorem State.openStep_a (s : State) : (s.openStep).a = s.a := rfl
@[simp] theorem State.openStep_x (s : State) : (s.openStep).x = s.x := rfl
@[simp] theorem State.openStep_y (s : State) : (s.openStep).y = s.y := rfl
@[simp] theorem State.openStep_sp (s : State) : (s.openStep).sp = s.sp := rfl
@[simp] theorem State.openStep_p (s : State) : (s.openStep).p = s.p := rfl
@[simp] theorem State.openStep_pc (s : State) : (s.openStep).pc = s.pc := rfl
@[simp] theorem State.openStep_ir (s : State) : (s.openStep).ir = s.ir := rfl
@[simp] theorem State.openStep_mem (s : State) : (s.openStep).mem = s.mem := rfl
@[simp] theorem State.openStep_ctx (s : State) : (s.openStep).ctx = some { start := s.pc, desc := none, ops := [], cycles := 0 } := rfl
@[simp] theorem State.openStep_run (s : State) : (s.openStep).run = s.run := rfl
@[simp] theorem State.openStep_bpm (s : State) : (s.openStep).bpm = s.bpm := rfl
@[simp] theorem State.openStep_cfg (s : State) : (s.openStep).cfg = s.cfg := rfl
@[simp] theorem State.openStep_event (s : State) : (s.openStep).event = .none := rfl
@[simp] theorem State.openStep_trace (s : State) : (s.openStep).trace = none := rfl

@[simp] theorem State.openInstr_a (s : State) (i : Instr) : (s.openInstr i).a = s.a := rfl
@[simp] theorem State.openInstr_x (s : State) (i : Instr) : (s.openInstr i).x = s.x := rfl
@[simp] theorem State.openInstr_y (s : State) (i : Instr) : (s.openInstr i).y = s.y := rfl
@[simp] theorem State.openInstr_sp (s : State) (i : Instr) : (s.openInstr i).sp = s.sp := rfl
@[simp] theorem State.openInstr_p (s : State) (i : Instr) : (s.openInstr i).p = s.p := rfl
@[simp] theorem State.openInstr_pc (s : State) (i : Instr) : (s.openInstr i).pc = s.pc := rfl
@[simp] theorem State.openInstr_ir (s : State) (i : Instr) : (s.openInstr i).ir = s.ir := rfl
@[simp] theorem State.openInstr_mem (s : State) (i : Instr) : (s.openInstr i).mem = s.mem := rfl
@[simp] theorem State.openInstr_ctx (s : State) (i : Instr) : (s.openInstr i).ctx = some { start := s.pc, desc := lookup s.cfg.table s.ir, ops := i.operandBytes, cycles := 0 } := rfl
@[simp] theorem State.openInstr_run (s : State) (i : Instr) : (s.openInstr i).run = s.run := rfl
@[simp] theorem State.openInstr_bpm (s : State) (i : Instr) : (s.openInstr i).bpm = s.bpm := rfl
@[simp] theorem State.openInstr_cfg (s : State) (i : Instr) : (s.openInstr i).cfg = s.cfg := rfl
@[simp] theorem State.openInstr_event (s : State) (i : Instr) : (s.openInstr i).event = .none := rfl
@[simp] theorem State.openInstr_trace (s : State) (i : Instr) : (s.openInstr i).trace = none := rfl

@[simp] theorem State.closeCtx_a (s : State) : (s.closeCtx).a = s.a := rfl
@[simp] theorem State.closeCtx_x (s : State) : (s.closeCtx).x = s.x := rfl
@[simp] theorem State.closeCtx_y (s : State) : (s.closeCtx).y = s.y := rfl
@[simp] theorem State.closeCtx_sp (s : State) : (s.closeCtx).sp = s.sp := rfl
@[simp] theorem State.closeCtx_p (s : State) : (s.closeCtx).p = s.p := rfl
@[simp] theorem State.closeCtx_pc (s : State) : (s.closeCtx).pc = s.pc := rfl
@[simp] theorem State.closeCtx_ir (s : State) : (s.closeCtx).ir = s.ir := rfl
@[simp] theorem State.closeCtx_mem (s : State) : (s.closeCtx).mem = s.mem := rfl
@[simp] theorem State.closeCtx_ctx (s : State) : (s.closeCtx).ctx = none := rfl
@[simp] theorem State.closeCtx_run (s : State) : (s.closeCtx).run = s.run := rfl
@[simp] theorem State.closeCtx_bpm (s : State) : (s.closeCtx).bpm = s.bpm := rfl
@[simp] theorem State.closeCtx_cfg (s : State) : (s.closeCtx).cfg = s.cfg := rfl
@[simp] theorem State.closeCtx_event (s : State) : (s.closeCtx).event = s.event := rfl
@[simp] theorem State.closeCtx_trace (s : State) : (s.closeCtx).trace = s.traceRow := rfl

@[simp] theorem State.resetOp_a (s : State) : (s.resetOp).a = s.a := rfl
@[simp] theorem State.resetOp_x (s : State) : (s.resetOp).x = s.x := rfl
@[simp] theorem State.resetOp_y (s : State) : (s.resetOp).y = s.y := rfl
@[simp] theorem State.resetOp_sp (s : State) : (s.resetOp).sp = 0xFF := rfl
@[simp] theorem State.resetOp_p (s : State) : (s.resetOp).p = 0x00 := rfl
@[simp] theorem State.resetOp_pc (s : State) : (s.resetOp).pc = s.cfg.resetVector - 1 := rfl
@[simp] theorem State.resetOp_ir (s : State) : (s.resetOp).ir = Config.jmpOpcode s.cfg := rfl
@[simp] theorem State.resetOp_mem (s : State) : (s.resetOp).mem = s.mem := rfl
@[simp] theorem State.resetOp_ctx (s : State) : (s.resetOp).ctx = none := rfl
@[simp] theorem State.resetOp_run (s : State) : (s.resetOp).run = .running := rfl
@[simp] theorem State.resetOp_bpm (s : State) : (s.resetOp).bpm = s.bpm := rfl
@[simp] theorem State.resetOp_cfg (s : State) : (s.resetOp).cfg = s.cfg := rfl
@[simp] theorem State.resetOp_event (s : State) : (s.resetOp).event = .none := rfl
@[simp] theorem State.resetOp_trace (s : State) : (s.resetOp).trace = none := rfl

@[simp] theorem State.setReg_sp (s : State) (r : Reg) (v : Byte) : (s.setReg r v).sp = s.sp := by cases r <;> rfl
@[simp] theorem State.setReg_p (s : State) (r : Reg) (v : Byte) : (s.setReg r v).p = s.p := by cases r <;> rfl
@[simp] theorem State.setReg_pc (s : State) (r : Reg) (v : Byte) : (s.setReg r v).pc = s.pc := by cases r <;> rfl
@[simp] theorem State.setReg_ir (s : State) (r : Reg) (v : Byte) : (s.setReg r v).ir = s.ir := by cases r <;> rfl
@[simp] theorem State.setReg_mem (s : State) (r : Reg) (v : Byte) : (s.setReg r v).mem = s.mem := by cases r <;> rfl
@[simp] theorem State.setReg_ctx (s : State) (r : Reg) (v : Byte) : (s.setReg r v).ctx = s.ctx := by cases r <;> rfl
@[simp] theorem State.setReg_run (s : State) (r : Reg) (v : Byte) : (s.setReg r v).run = s.run := by cases r <;> rfl
@[simp] theorem State.setReg_bpm (s : State) (r : Reg) (v : Byte) : (s.setReg r v).bpm = s.bpm := by cases r <;> rfl
@[simp] theorem State.setReg_cfg (s : State) (r : Reg) (v : Byte) : (s.setReg r v).cfg = s.cfg := by cases r <;> rfl
@[simp] theorem State.setReg_event (s : State) (r : Reg) (v : Byte) : (s.setReg r v).event = s.event := by cases r <;> rfl
@[simp] theorem State.setReg_trace (s : State) (r : Reg) (v : Byte) : (s.setReg r v).trace = s.trace := by cases r <;> rfl
@[simp] theorem State.setReg_reg_self (s : State) (r : Reg) (v : Byte) : (s.setReg r v).reg r = v := by cases r <;> rfl
@[simp] theorem State.setReg_a (s : State) (v : Byte) : s.setReg .a v = { s with a := v } := rfl
@[simp] theorem State.setReg_x (s : State) (v : Byte) : s.setReg .x v = { s with x := v } := rfl
@[simp] theorem State.setReg_y (s : State) (v : Byte) : s.setReg .y v = { s with y := v } := rfl

/-- Writing one general register leaves the others. -/
theorem State.setReg_reg_ne (s : State) {r q : Reg} (v : Byte) (h : q ≠ r) : (s.setReg r v).reg q = s.reg q := by
  cases r <;> cases q <;> first | rfl | exact absurd rfl h

end Sys2Proof.Machine
end

