-- ==== Sys2Proof/Laws/Memory.lean ====
section
/-!
SUPPORT. The laws of memory: a read after a write, on any list of cells, and that every operation on memory keeps its
canonical form.
-/

namespace Sys2Proof.Machine

open Sys2Proof

/-! ## Reading what was written -/

theorem Memory.readAt_of_absent : ∀ (m : List Host.Cell) (k : Nat), (∀ c ∈ m, c.1 ≠ k) → Memory.readAt m k = Memory.blank
  | [], _, _ => rfl
  | c :: m, k, h => by
    have hc : c.1 ≠ k := h c (by simp)
    simp only [Memory.readAt, hc, if_false]
    exact Memory.readAt_of_absent m k (fun d hd => h d (by simp [hd]))

theorem Memory.absent_erase (m : List Host.Cell) (k : Nat) : ∀ c ∈ Memory.erase m k, c.1 ≠ k := by
  intro c hc
  simpa using (List.mem_filter.mp hc).2

theorem Memory.readAt_erase_ne : ∀ (m : List Host.Cell) {k j : Nat}, j ≠ k →
    Memory.readAt (Memory.erase m k) j = Memory.readAt m j
  | [], _, _, _ => rfl
  | c :: m, k, j, h => by
    have ih := Memory.readAt_erase_ne m h
    unfold Memory.erase at ih ⊢
    by_cases hc : c.1 = k
    · have hj : c.1 ≠ j := fun e => h (e.symm.trans hc)
      simp [Memory.readAt, hc, Ne.symm h, ih]
    · simp [Memory.readAt, hc, ih]

theorem Memory.readAt_insert_self : ∀ (m : List Host.Cell) (k : Nat) (v : Byte), (∀ c ∈ m, c.1 ≠ k) →
    Memory.readAt (Memory.insert m k v) k = v
  | [], k, v, _ => by simp [Memory.insert, Memory.readAt]
  | c :: m, k, v, h => by
    have hc : c.1 ≠ k := h c (by simp)
    by_cases hk : k < c.1
    · simp [Memory.insert, Memory.readAt, hk]
    · simp only [Memory.insert, hk, if_false, Memory.readAt, hc]
      exact Memory.readAt_insert_self m k v (fun d hd => h d (by simp [hd]))

theorem Memory.readAt_insert_ne : ∀ (m : List Host.Cell) {k j : Nat} (v : Byte), j ≠ k →
    Memory.readAt (Memory.insert m k v) j = Memory.readAt m j
  | [], k, j, v, h => by simp [Memory.insert, Memory.readAt, Ne.symm h]
  | c :: m, k, j, v, h => by
    by_cases hk : k < c.1
    · simp [Memory.insert, Memory.readAt, hk, Ne.symm h]
    · simp only [Memory.insert, hk, if_false, Memory.readAt]
      rw [Memory.readAt_insert_ne m v h]

/-- A read of the address written gives the value written. -/
theorem Memory.readAt_writeAt_self (m : List Host.Cell) (k : Nat) (v : Byte) :
    Memory.readAt (Memory.writeAt m k v) k = v := by
  unfold Memory.writeAt
  split
  · next h => rw [Memory.readAt_of_absent _ _ (Memory.absent_erase m k), h]
  · exact Memory.readAt_insert_self _ _ _ (Memory.absent_erase m k)

/-- A read of another address gives what it gave before. -/
theorem Memory.readAt_writeAt_ne (m : List Host.Cell) {k j : Nat} (v : Byte) (h : j ≠ k) :
    Memory.readAt (Memory.writeAt m k v) j = Memory.readAt m j := by
  unfold Memory.writeAt
  split
  · exact Memory.readAt_erase_ne m h
  · rw [Memory.readAt_insert_ne _ v h, Memory.readAt_erase_ne m h]

/-- The byte at an address after a write, at the machine's level. -/
theorem State.byteAt_poke (s : State) (k j : Word) (v : Byte) :
    (s.poke k v).byteAt j = if j = k then v else s.byteAt j := by
  unfold State.byteAt
  rw [State.poke_mem]
  split
  · next h => rw [h, Memory.readAt_writeAt_self]
  · next h => exact Memory.readAt_writeAt_ne _ _ (fun e => h (BitVec.eq_of_toNat_eq e))

@[simp] theorem State.byteAt_poke_self (s : State) (k : Word) (v : Byte) : (s.poke k v).byteAt k = v := by
  simp [State.byteAt_poke]

theorem State.byteAt_poke_ne (s : State) {k j : Word} (v : Byte) (h : j ≠ k) : (s.poke k v).byteAt j = s.byteAt j := by
  simp [State.byteAt_poke, h]

/-! ## The canonical form is kept -/

theorem Memory.mem_insert : ∀ (m : List Host.Cell) (k : Nat) (v : Byte) (c : Host.Cell),
    c ∈ Memory.insert m k v → c = (k, v) ∨ c ∈ m
  | [], _, _, _, h => by simpa [Memory.insert] using h
  | d :: m, k, v, c, h => by
    by_cases hk : k < d.1
    · simpa [Memory.insert, hk] using h
    · simp only [Memory.insert, hk, if_false, List.mem_cons] at h
      rcases h with h | h
      · exact .inr (by simp [h])
      · exact (Memory.mem_insert m k v c h).imp id (by intro h'; simp [h'])

theorem Memory.pairwise_insert : ∀ (m : List Host.Cell) (k : Nat) (v : Byte),
    m.Pairwise (fun c d => c.1 < d.1) → (∀ c ∈ m, c.1 ≠ k) →
    (Memory.insert m k v).Pairwise (fun c d => c.1 < d.1)
  | [], k, v, _, _ => by simp [Memory.insert]
  | d :: m, k, v, hp, hne => by
    rw [List.pairwise_cons] at hp
    by_cases hk : k < d.1
    · simp only [Memory.insert, hk, if_true, List.pairwise_cons]
      refine ⟨fun c hc => ?_, hp.1, hp.2⟩
      rcases List.mem_cons.mp hc with rfl | hc
      · exact hk
      · exact lt_trans hk (hp.1 c hc)
    · simp only [Memory.insert, hk, if_false, List.pairwise_cons]
      refine ⟨fun c hc => ?_, Memory.pairwise_insert m k v hp.2 (fun c hc => hne c (by simp [hc]))⟩
      rcases Memory.mem_insert m k v c hc with rfl | hc
      · have : d.1 ≠ k := hne d (by simp)
        simp only
        omega
      · exact hp.1 c hc

theorem Memory.wf_erase (m : List Host.Cell) (k : Nat) (h : Memory.wf m) : Memory.wf (Memory.erase m k) :=
  ⟨h.1.filter _, fun c hc => h.2 c (List.mem_of_mem_filter hc)⟩

/-- A write at an address of the space keeps the canonical form. -/
theorem Memory.wf_writeAt (m : List Host.Cell) (k : Nat) (v : Byte) (hk : k < 65536) (h : Memory.wf m) :
    Memory.wf (Memory.writeAt m k v) := by
  have he := Memory.wf_erase m k h
  unfold Memory.writeAt
  split
  · exact he
  · next hv =>
    refine ⟨Memory.pairwise_insert _ _ _ he.1 (Memory.absent_erase m k), fun c hc => ?_⟩
    rcases Memory.mem_insert _ _ _ _ hc with rfl | hc
    · exact ⟨hk, hv⟩
    · exact he.2 c hc

theorem State.wf_poke (s : State) (k : Word) (v : Byte) (h : Memory.wf s.mem) : Memory.wf (s.poke k v).mem :=
  Memory.wf_writeAt _ _ _ k.isLt h

/-- In canonical form, equal contents are equal lists. -/
theorem Memory.ext_of_wf : ∀ {m n : List Host.Cell}, Memory.wf m → Memory.wf n →
    (∀ k, Memory.readAt m k = Memory.readAt n k) → m = n
  | [], [], _, _, _ => rfl
  | [], d :: n, _, hn, h => by
    have := h d.1
    simp only [Memory.readAt, if_true] at this
    exact absurd this.symm (hn.2 d (by simp)).2
  | c :: m, [], hm, _, h => by
    have := h c.1
    simp only [Memory.readAt, if_true] at this
    exact absurd this (hm.2 c (by simp)).2
  | c :: m, d :: n, hm, hn, h => by
    have hmp := List.pairwise_cons.mp hm.1
    have hnp := List.pairwise_cons.mp hn.1
    have hc := h c.1
    have hd := h d.1
    have hcv := (hm.2 c (by simp)).2
    have hdv := (hn.2 d (by simp)).2
    have keyEq : c.1 = d.1 := by
      rcases Nat.lt_trichotomy c.1 d.1 with hlt | heq | hgt
      · exfalso
        rw [Memory.readAt_of_absent (d :: n) c.1] at hc
        · simp only [Memory.readAt, if_true] at hc
          exact hcv hc
        · intro e he
          rcases List.mem_cons.mp he with rfl | he
          · omega
          · have := hnp.1 e he
            omega
      · exact heq
      · exfalso
        rw [Memory.readAt_of_absent (c :: m) d.1] at hd
        · simp only [Memory.readAt, if_true] at hd
          exact hdv hd.symm
        · intro e he
          rcases List.mem_cons.mp he with rfl | he
          · omega
          · have := hmp.1 e he
            omega
    have valEq : c.2 = d.2 := by simpa [Memory.readAt, keyEq] using hc
    have hcd : c = d := Prod.ext keyEq valEq
    subst hcd
    have hm' : Memory.wf m := ⟨hmp.2, fun e he => hm.2 e (by simp [he])⟩
    have hn' : Memory.wf n := ⟨hnp.2, fun e he => hn.2 e (by simp [he])⟩
    rw [Memory.ext_of_wf hm' hn' fun k => ?_]
    by_cases hk : c.1 = k
    · subst hk
      rw [Memory.readAt_of_absent m, Memory.readAt_of_absent n]
      · intro e he
        have := hnp.1 e he
        omega
      · intro e he
        have := hmp.1 e he
        omega
    · simpa [Memory.readAt, hk] using h k

theorem State.reset_mem_wf : Memory.wf State.reset.mem := by decide

end Sys2Proof.Machine
end

