-- ==== Sys2Proof/Laws/Ops.lean ====
section
/-!
SUPPORT. One lemma per shared operation, saying what it does: every composed operation is rewritten to the six plain updates
(setReg, setP, setSp, setPc, poke, charge), through which reads of memory, of a register and of CTX.start pass.
-/

namespace Sys2Proof.Machine

open Sys2Proof

/-! ## Reads through the plain updates -/

@[simp] theorem State.byteAt_setReg (s : State) (r : Reg) (v : Byte) (k : Word) : (s.setReg r v).byteAt k = s.byteAt k := by simp [State.byteAt]
@[simp] theorem State.wordAt_setReg (s : State) (r : Reg) (v : Byte) (k : Word) : (s.setReg r v).wordAt k = s.wordAt k := by simp [State.wordAt]
@[simp] theorem State.byteAt_setP (s : State) (v : Byte) (k : Word) : (s.setP v).byteAt k = s.byteAt k := by simp [State.byteAt]
@[simp] theorem State.wordAt_setP (s : State) (v : Byte) (k : Word) : (s.setP v).wordAt k = s.wordAt k := by simp [State.wordAt]
@[simp] theorem State.byteAt_setSp (s : State) (v : Byte) (k : Word) : (s.setSp v).byteAt k = s.byteAt k := by simp [State.byteAt]
@[simp] theorem State.wordAt_setSp (s : State) (v : Byte) (k : Word) : (s.setSp v).wordAt k = s.wordAt k := by simp [State.wordAt]
@[simp] theorem State.byteAt_setPc (s : State) (t : Word) (k : Word) : (s.setPc t).byteAt k = s.byteAt k := by simp [State.byteAt]
@[simp] theorem State.wordAt_setPc (s : State) (t : Word) (k : Word) : (s.setPc t).wordAt k = s.wordAt k := by simp [State.wordAt]
@[simp] theorem State.byteAt_charge (s : State) (n : Nat) (k : Word) : (s.charge n).byteAt k = s.byteAt k := by simp [State.byteAt]
@[simp] theorem State.wordAt_charge (s : State) (n : Nat) (k : Word) : (s.charge n).wordAt k = s.wordAt k := by simp [State.wordAt]
@[simp] theorem State.reg_setP (s : State) (v : Byte) (r : Reg) : (s.setP v).reg r = s.reg r := by cases r <;> rfl
@[simp] theorem State.reg_setSp (s : State) (v : Byte) (r : Reg) : (s.setSp v).reg r = s.reg r := by cases r <;> rfl
@[simp] theorem State.reg_setPc (s : State) (t : Word) (r : Reg) : (s.setPc t).reg r = s.reg r := by cases r <;> rfl
@[simp] theorem State.reg_charge (s : State) (n : Nat) (r : Reg) : (s.charge n).reg r = s.reg r := by cases r <;> rfl
@[simp] theorem State.reg_poke (s : State) (k : Word) (v : Byte) (r : Reg) : (s.poke k v).reg r = s.reg r := by cases r <;> rfl
@[simp] theorem State.start_setReg (s : State) (r : Reg) (v : Byte) : (s.setReg r v).start = s.start := by simp [State.start]
@[simp] theorem State.start_setP (s : State) (v : Byte) : (s.setP v).start = s.start := by simp [State.start]
@[simp] theorem State.start_setSp (s : State) (v : Byte) : (s.setSp v).start = s.start := by simp [State.start]
@[simp] theorem State.start_charge (s : State) (n : Nat) : (s.charge n).start = s.start := by
  unfold State.start
  cases h : s.ctx <;> simp [h]
@[simp] theorem State.start_poke (s : State) (k : Word) (v : Byte) : (s.poke k v).start = s.start := by simp [State.start]

/-- Charges add up. -/
@[simp] theorem State.charge_charge (s : State) (m n : Nat) : (s.charge m).charge n = s.charge (m + n) := by
  unfold State.charge
  cases s.ctx <;> simp [Nat.add_assoc]

/-! Charges commute with every other plain update; simp moves them innermost, where they add up. -/

@[simp] theorem State.charge_setReg (s : State) (r : Reg) (v : Byte) (n : Nat) :
    (s.setReg r v).charge n = (s.charge n).setReg r v := by cases r <;> rfl
@[simp] theorem State.charge_setP (s : State) (v : Byte) (n : Nat) : (s.setP v).charge n = (s.charge n).setP v := rfl
@[simp] theorem State.charge_setSp (s : State) (v : Byte) (n : Nat) : (s.setSp v).charge n = (s.charge n).setSp v := rfl
@[simp] theorem State.charge_setPc (s : State) (t : Word) (n : Nat) : (s.setPc t).charge n = (s.charge n).setPc t := rfl
@[simp] theorem State.charge_poke (s : State) (k : Word) (v : Byte) (n : Nat) :
    (s.poke k v).charge n = (s.charge n).poke k v := rfl

/-! ## Composed operations as plain updates -/

@[simp] theorem State.memRead1_eq (s : State) (k : Word) : s.memRead1 k = (s.byteAt k, s.charge 1) := rfl
@[simp] theorem State.memReadOff_eq (s : State) (k off : Word) : s.memReadOff k off = (s.byteAt (k + off), s.charge 1) := rfl
@[simp] theorem State.memRead2_eq (s : State) (k : Word) : s.memRead2 k = (s.wordAt k, s.charge 2) := by
  simp [State.memRead2, State.wordAt]
@[simp] theorem State.memWrite_eq (s : State) (k : Word) (v : Byte) : s.memWrite k v = (s.poke k v).charge 1 := rfl
@[simp] theorem State.setZN_eq (s : State) (v : Byte) : s.setZN v = s.setP (flagsZN s.p v) := rfl
@[simp] theorem State.setFlag_eq (s : State) (f : Flag) (b : Bool) : s.setFlag f b = s.setP (putFlag s.p f b) := rfl
@[simp] theorem State.loadReg_eq (s : State) (r : Reg) (v : Byte) :
    s.loadReg r v = (s.setReg r v).setP (flagsZN s.p v) := by simp [State.loadReg]
@[simp] theorem State.advance_eq (s : State) (op : Op) :
    s.advance op = s.setPc (s.start + BitVec.ofNat 16 op.length) := rfl
@[simp] theorem State.push_eq (s : State) (v : Byte) :
    s.push v = ((s.poke (stackAddr s.sp) v).charge 1).setSp (s.sp - 1) := rfl
@[simp] theorem State.pop_eq (s : State) :
    s.pop = (s.byteAt (stackAddr (s.sp + 1)), (s.setSp (s.sp + 1)).charge 1) := rfl
@[simp] theorem State.immOperand_eq (s : State) (v : Byte) : s.immOperand v = (v, s.charge 1) := rfl
@[simp] theorem State.absAddr_eq (s : State) (k : Word) : s.absAddr k = (k, s.charge 2) := rfl
@[simp] theorem State.abxAddr_eq (s : State) (k : Word) : s.abxAddr k = (k + zext16 s.x, s.charge 2) := rfl
@[simp] theorem State.abyAddr_eq (s : State) (k : Word) : s.abyAddr k = (k + zext16 s.y, s.charge 2) := rfl
@[simp] theorem State.relTarget_eq (s : State) (rel : Byte) :
    s.relTarget rel = (s.start + 2#16 + sext16 rel, s.charge 1) := rfl
@[simp] theorem State.indTarget_eq (s : State) (ptr : Word) :
    s.indTarget ptr = (s.wordAt ptr, s.charge 4) := by simp [State.indTarget]

/-- The page-zero pointer read under each setting of `ZP_WRAP` (40 R113, R114). -/
def State.zpPointer (s : State) (wrap : Bool) (zp idx : Byte) : Word :=
  if wrap then wordOf (s.byteAt (zext16 (zp + idx))) (s.byteAt (zext16 (zp + idx + 1)))
  else s.wordAt (zext16 zp + zext16 idx)

@[simp] theorem State.zpPointer_charge (s : State) (n : Nat) (w : Bool) (zp idx : Byte) :
    (s.charge n).zpPointer w zp idx = s.zpPointer w zp idx := by simp [State.zpPointer]

@[simp] theorem State.izxAddr_eq (s : State) (zp : Byte) :
    s.izxAddr zp = (s.zpPointer s.cfg.zpWrap zp s.x, s.charge 3) := by
  unfold State.izxAddr State.zpPointer
  cases h : s.cfg.zpWrap <;> simp [h, State.zpWord]

@[simp] theorem State.izyAddr_eq (s : State) (zp : Byte) :
    s.izyAddr zp = (s.zpPointer s.cfg.zpWrap zp 0 + zext16 s.y, s.charge 3) := by
  unfold State.izyAddr State.zpPointer
  cases h : s.cfg.zpWrap <;> simp [h, State.zpWord, zext16]

@[simp] theorem loadValue_eq (op : Op) (r : Reg) (v : Byte) (s : State) :
    loadValue op r (v, s) =
      .next (((s.setReg r v).setP (flagsZN s.p v)).setPc (s.start + BitVec.ofNat 16 op.length)) := by
  simp [loadValue]

@[simp] theorem loadFrom_eq (op : Op) (r : Reg) (k : Word) (s : State) :
    loadFrom op r (k, s) = loadValue op r (s.byteAt k, s.charge 1) := rfl

@[simp] theorem storeTo_eq (op : Op) (r : Reg) (k : Word) (s : State) :
    storeTo op r (k, s) = .next (((s.poke k (s.reg r)).charge 1).setPc (s.start + BitVec.ofNat 16 op.length)) := by
  simp [storeTo]

@[simp] theorem setAndAdvance_eq (op : Op) (r : Reg) (v : Byte) (s : State) :
    setAndAdvance op r v s =
      .next (((s.setReg r v).setP (flagsZN s.p v)).setPc (s.start + BitVec.ofNat 16 op.length)) := by
  simp [setAndAdvance]

@[simp] theorem writeFlag_eq (op : Op) (f : Flag) (b : Bool) (s : State) :
    writeFlag op f b s = .next ((s.setP (putFlag s.p f b)).setPc (s.start + BitVec.ofNat 16 op.length)) := by
  simp [writeFlag]

/-! ## Flags -/

/-- Writing a flag writes its bit and no other. -/
theorem getLsbD_putFlag (p : Byte) (f : Flag) (b : Bool) (k : Nat) (hk : k < 8) :
    (putFlag p f b).getLsbD k = if k = f.bit then b else p.getLsbD k := by
  have hmask : f.mask.getLsbD k = decide (k = f.bit) := by
    have : k = 0 ∨ k = 1 ∨ k = 2 ∨ k = 3 ∨ k = 4 ∨ k = 5 ∨ k = 6 ∨ k = 7 := by omega
    cases f <;> rcases this with h | h | h | h | h | h | h | h <;> subst h <;> rfl
  cases b <;> by_cases h : k = f.bit <;> simp [putFlag, h, hk] <;> simp_all

/-- `SetZN` bit by bit (40 R109). -/
theorem getLsbD_flagsZN (p v : Byte) (k : Nat) (hk : k < 8) :
    (flagsZN p v).getLsbD k = if k = 7 then v.getLsbD 7 else if k = 1 then decide (v = 0) else p.getLsbD k := by
  rw [flagsZN, getLsbD_putFlag _ _ _ _ hk, getLsbD_putFlag _ _ _ _ hk]
  simp only [Flag.bit]
  congr 1

/-! ## The stack page -/

/-- The stack page: SP indexes within it (10_state R25). -/
theorem stackAddr_toNat (sp : Byte) : (stackAddr sp).toNat = 256 + sp.toNat := by
  have := sp.isLt
  have h : stackBase.toNat = 256 := rfl
  rw [stackAddr, BitVec.toNat_add, BitVec.toNat_setWidth, h]
  omega

theorem stackAddr_inj {p q : Byte} : stackAddr p = stackAddr q ↔ p = q := by
  constructor
  · intro h
    have := congrArg BitVec.toNat h
    rw [stackAddr_toNat, stackAddr_toNat] at this
    exact BitVec.eq_of_toNat_eq (by omega)
  · rintro rfl
    rfl

/-! ## Byte order -/

@[simp] theorem wordOf_lo_hi (w : Word) : wordOf (loByte w) (hiByte w) = w := by
  apply BitVec.eq_of_getLsbD_eq
  intro k hk
  simp only [wordOf, loByte, hiByte, BitVec.getLsbD_append, BitVec.getLsbD_extractLsb']
  by_cases h : k < 8
  · simp [h]
  · have h8 : k - 8 < 8 := by omega
    have : 8 + (k - 8) = k := by omega
    simp [h, h8, this]

@[simp] theorem loByte_wordOf (lo hi : Byte) : loByte (wordOf lo hi) = lo := by
  apply BitVec.eq_of_getLsbD_eq
  intro k hk
  simp only [wordOf, loByte, BitVec.getLsbD_append, BitVec.getLsbD_extractLsb']
  simp [hk]

@[simp] theorem hiByte_wordOf (lo hi : Byte) : hiByte (wordOf lo hi) = hi := by
  apply BitVec.eq_of_getLsbD_eq
  intro k hk
  have : ¬ (8 + k < 8) := by omega
  simp only [wordOf, hiByte, BitVec.getLsbD_append, BitVec.getLsbD_extractLsb']
  simp [hk]

/-- `{hi, lo}` as a number (20_memory R52). -/
theorem toNat_wordOf (lo hi : Byte) : (wordOf lo hi).toNat = 256 * hi.toNat + lo.toNat := by
  have := lo.isLt
  simp only [wordOf]
  rw [BitVec.toNat_append, ← Nat.shiftLeft_add_eq_or_of_lt (b := lo.toNat) (i := 8) (by omega)]
  simp [Nat.shiftLeft_eq, Nat.mul_comm]

/-! ## Breakpoint sets -/

/-- A set that is tested keeps its conditions and its label (48 R202). -/
@[simp] theorem BreakSet.fireTest_conds (obs : Elem → Nat) (b : BreakSet) : (b.fireTest obs).1.conds = b.conds := by
  unfold BreakSet.fireTest
  split <;> rfl

/-- The evaluator neither adds nor drops a set. -/
theorem evaluate_length (obs : Elem → Nat) : ∀ (k : Nat) (bs : List BreakSet), (evaluate obs k bs).1.length = bs.length
  | _, [] => rfl
  | k, b :: bs => by
    unfold evaluate
    split
    · rfl
    · simp [evaluate_length obs (k + 1) bs]

end Sys2Proof.Machine
end

