-- ==== Sys2Proof/Laws/Exec.lean ====
section
/-!
SUPPORT. The meaning of every instruction as plain updates of the state: one equation per constructor of Instr, which proofs
cite instead of unfolding a meaning.
-/

namespace Sys2Proof.Machine

open Sys2Proof

/-- The state after an instruction that gives a register a value, sets Z and N of it and advances (41, 42, 45). -/
def State.afterSet (s : State) (n : Nat) (r : Reg) (v : Byte) (len : Nat) : State :=
  (((s.charge n).setReg r v).setP (flagsZN s.p v)).setPc (s.start + BitVec.ofNat 16 len)

/-- The state after an instruction that stores a byte and advances (41 R142, R143). -/
def State.afterStore (s : State) (k : Word) (v : Byte) : State := ((s.charge 3).poke k v).setPc (s.start + 3#16)

/-- The state after an instruction that writes one flag and advances (43). -/
def State.afterFlag (s : State) (f : Flag) (b : Bool) : State := (s.setP (putFlag s.p f b)).setPc (s.start + 1#16)

/-- No cycle unit charged is no change. -/
@[simp] theorem State.charge_zero (s : State) : s.charge 0 = s := by
  unfold State.charge
  cases h : s.ctx <;> simp [← h]

theorem exec_ldaImm (s : State) (imm : Byte) : exec (.ldaImm imm) s = .next (s.afterSet 1 .a imm 2) := by
  simp [exec, execLdaImm, State.afterSet, Op.length, Op.format, Format.length, Format.operandBytes]

theorem exec_ldxImm (s : State) (imm : Byte) : exec (.ldxImm imm) s = .next (s.afterSet 1 .x imm 2) := by
  simp [exec, execLdxImm, State.afterSet, Op.length, Op.format, Format.length, Format.operandBytes]

theorem exec_ldyImm (s : State) (imm : Byte) : exec (.ldyImm imm) s = .next (s.afterSet 1 .y imm 2) := by
  simp [exec, execLdyImm, State.afterSet, Op.length, Op.format, Format.length, Format.operandBytes]

theorem exec_ldaAbs (s : State) (addr : Word) : exec (.ldaAbs addr) s = .next (s.afterSet 3 .a (s.byteAt addr) 3) := by
  simp [exec, execLdaAbs, State.afterSet, Op.length, Op.format, Format.length, Format.operandBytes]

theorem exec_ldxAbs (s : State) (addr : Word) : exec (.ldxAbs addr) s = .next (s.afterSet 3 .x (s.byteAt addr) 3) := by
  simp [exec, execLdxAbs, State.afterSet, Op.length, Op.format, Format.length, Format.operandBytes]

theorem exec_ldyAbs (s : State) (addr : Word) : exec (.ldyAbs addr) s = .next (s.afterSet 3 .y (s.byteAt addr) 3) := by
  simp [exec, execLdyAbs, State.afterSet, Op.length, Op.format, Format.length, Format.operandBytes]

theorem exec_ldaAbx (s : State) (addr : Word) : exec (.ldaAbx addr) s = .next (s.afterSet 3 .a (s.byteAt (addr + zext16 s.x)) 3) := by
  simp [exec, execLdaAbx, State.afterSet, Op.length, Op.format, Format.length, Format.operandBytes]

theorem exec_ldyAbx (s : State) (addr : Word) : exec (.ldyAbx addr) s = .next (s.afterSet 3 .y (s.byteAt (addr + zext16 s.x)) 3) := by
  simp [exec, execLdyAbx, State.afterSet, Op.length, Op.format, Format.length, Format.operandBytes]

theorem exec_ldaAby (s : State) (addr : Word) : exec (.ldaAby addr) s = .next (s.afterSet 3 .a (s.byteAt (addr + zext16 s.y)) 3) := by
  simp [exec, execLdaAby, State.afterSet, Op.length, Op.format, Format.length, Format.operandBytes]

theorem exec_ldxAby (s : State) (addr : Word) : exec (.ldxAby addr) s = .next (s.afterSet 3 .x (s.byteAt (addr + zext16 s.y)) 3) := by
  simp [exec, execLdxAby, State.afterSet, Op.length, Op.format, Format.length, Format.operandBytes]

theorem exec_ldaIzx (s : State) (zp : Byte) : exec (.ldaIzx zp) s = .next (s.afterSet 4 .a (s.byteAt (s.zpPointer s.cfg.zpWrap zp s.x)) 2) := by
  simp [exec, execLdaIzx, State.afterSet, Op.length, Op.format, Format.length, Format.operandBytes]

theorem exec_ldaIzy (s : State) (zp : Byte) : exec (.ldaIzy zp) s = .next (s.afterSet 4 .a (s.byteAt (s.zpPointer s.cfg.zpWrap zp 0 + zext16 s.y)) 2) := by
  simp [exec, execLdaIzy, State.afterSet, Op.length, Op.format, Format.length, Format.operandBytes]

theorem exec_adcAbs (s : State) (addr : Word) : exec (.adcAbs addr) s = .next (s.afterSet 3 .a (s.a + s.byteAt addr + carryIn s.p) 3) := by
  simp [exec, execAdcAbs, State.afterSet, Op.length, Op.format, Format.length, Format.operandBytes]

theorem exec_staAbs (s : State) (addr : Word) : exec (.staAbs addr) s = .next (s.afterStore addr s.a) := by
  simp [exec, execStaAbs, State.afterStore, Op.length, Op.format, Format.length, Format.operandBytes, State.reg]

theorem exec_stxAbs (s : State) (addr : Word) : exec (.stxAbs addr) s = .next (s.afterStore addr s.x) := by
  simp [exec, execStxAbs, State.afterStore, Op.length, Op.format, Format.length, Format.operandBytes, State.reg]

theorem exec_inx (s : State) : exec .inx s = .next (s.afterSet 0 .x (s.x + 1) 1) := by
  simp [exec, execInx, State.afterSet, Op.length, Op.format, Format.length, Format.operandBytes]

theorem exec_iny (s : State) : exec .iny s = .next (s.afterSet 0 .y (s.y + 1) 1) := by
  simp [exec, execIny, State.afterSet, Op.length, Op.format, Format.length, Format.operandBytes]

theorem exec_dex (s : State) : exec .dex s = .next (s.afterSet 0 .x (s.x - 1) 1) := by
  simp [exec, execDex, State.afterSet, Op.length, Op.format, Format.length, Format.operandBytes]

theorem exec_dey (s : State) : exec .dey s = .next (s.afterSet 0 .y (s.y - 1) 1) := by
  simp [exec, execDey, State.afterSet, Op.length, Op.format, Format.length, Format.operandBytes]

theorem exec_tax (s : State) : exec .tax s = .next (s.afterSet 0 .x s.a 1) := by
  simp [exec, execTax, State.afterSet, Op.length, Op.format, Format.length, Format.operandBytes]

theorem exec_txa (s : State) : exec .txa s = .next (s.afterSet 0 .a s.x 1) := by
  simp [exec, execTxa, State.afterSet, Op.length, Op.format, Format.length, Format.operandBytes]

theorem exec_tay (s : State) : exec .tay s = .next (s.afterSet 0 .y s.a 1) := by
  simp [exec, execTay, State.afterSet, Op.length, Op.format, Format.length, Format.operandBytes]

theorem exec_tya (s : State) : exec .tya s = .next (s.afterSet 0 .a s.y 1) := by
  simp [exec, execTya, State.afterSet, Op.length, Op.format, Format.length, Format.operandBytes]

theorem exec_clc (s : State) : exec .clc s = .next (s.afterFlag .c false) := by
  rfl

theorem exec_sec (s : State) : exec .sec s = .next (s.afterFlag .c true) := by
  rfl

theorem exec_cli (s : State) : exec .cli s = .next (s.afterFlag .i false) := by
  rfl

theorem exec_sei (s : State) : exec .sei s = .next (s.afterFlag .i true) := by
  rfl

theorem exec_cld (s : State) : exec .cld s = .next (s.afterFlag .d false) := by
  rfl

theorem exec_sed (s : State) : exec .sed s = .next (s.afterFlag .d true) := by
  rfl

theorem exec_clv (s : State) : exec .clv s = .next (s.afterFlag .v false) := by
  rfl

theorem exec_nop (s : State) : exec .nop s = .next (s.setPc (s.start + 1#16)) := by
  rfl

theorem exec_hlt (s : State) : exec .hlt s = .next s.halt := by
  rfl

theorem exec_jmpAbs (s : State) (addr : Word) : exec (.jmpAbs addr) s = .next ((s.charge 2).setPc addr) := by
  rfl

theorem exec_jmpInd (s : State) (ptr : Word) : exec (.jmpInd ptr) s = .next ((s.charge 4).setPc (s.wordAt ptr)) := by
  simp [exec, execJmpInd]

/-- BNE with Z clear is taken (44 R170). -/
theorem exec_bne_taken (s : State) (rel : Byte) (h : flagOf s.p .z = false) :
    exec (.bne rel) s = .next ((s.charge 2).setPc (s.start + 2#16 + sext16 rel)) := by
  simp only [exec, execBne, h]
  simp

/-- BNE with Z set passes on (44 R170). -/
theorem exec_bne_passed (s : State) (rel : Byte) (h : flagOf s.p .z = true) :
    exec (.bne rel) s = .next ((s.charge 1).setPc (s.start + 2#16)) := by
  simp only [exec, execBne, h]
  simp [Op.length, Op.format, Format.length, Format.operandBytes]

/-- JSR as plain updates (44 R173). -/
theorem exec_jsr (s : State) (addr : Word) :
    exec (.jsr addr) s = .next (((((s.charge 4).poke (stackAddr s.sp) (loByte (s.start + 2))).poke (stackAddr (s.sp - 1))
      (hiByte (s.start + 2))).setSp (s.sp - 2)).setPc addr) := by
  have h1 : s.start + BitVec.ofNat 16 Op.jsr.length - 1#16 = s.start + 2 := by
    have : BitVec.ofNat 16 Op.jsr.length = 3#16 := rfl
    rw [this]
    apply BitVec.eq_of_toNat_eq
    simp [BitVec.toNat_sub]
    omega
  have h2 : s.sp - 1#8 - 1#8 = s.sp - 2 := by rw [BitVec.sub_sub]; rfl
  simp only [exec, execJsr, State.push_eq, State.advance_eq, State.absAddr_eq]
  simp
  rw [h1, h2]
  rfl

/-- RTS as plain updates (44 R174). -/
theorem exec_rts (s : State) :
    exec .rts s = .next (((s.charge 2).setSp (s.sp + 2)).setPc
      (wordOf (s.byteAt (stackAddr (s.sp + 2))) (s.byteAt (stackAddr (s.sp + 1))) + 1)) := by
  have h : s.sp + 1#8 + 1#8 = s.sp + 2#8 := by rw [BitVec.add_assoc]; rfl
  simp only [exec, execRts, State.pop_eq]
  simp [h]
  rfl

/-- The two stack bytes of a call lie at different addresses. -/
theorem stackAddr_sub_one_ne (p : Byte) : stackAddr (p - 1) ≠ stackAddr p := by
  rw [Ne, stackAddr_inj]
  intro h
  have := congrArg BitVec.toNat h
  have hp := p.isLt
  simp [BitVec.toNat_sub] at this
  omega

/-- What each shape of instruction can do, said once: an instruction sets a register, stores a byte, writes a flag, or only
moves PC (with some cycle units), or is JSR, RTS or the sentinel. -/
theorem exec_shape {i : Instr} {s t : State} (h : exec i s = .next t) :
    (∃ n r v, t = s.afterSet n r v i.length) ∨ (∃ k v, t = s.afterStore k v) ∨ (∃ f b, f ≠ .z ∧ f ≠ .n ∧ t = s.afterFlag f b) ∨
    (∃ n pc, t = (s.charge n).setPc pc) ∨ (∃ addr, i = .jsr addr) ∨ i = .rts ∨ (i = .hlt ∧ t = s.halt) := by
  cases i
  case bne rel =>
    cases hz : flagOf s.p .z
    · rw [exec_bne_taken s rel hz] at h
      cases h
      exact .inr (.inr (.inr (.inl ⟨_, _, rfl⟩)))
    · rw [exec_bne_passed s rel hz] at h
      cases h
      exact .inr (.inr (.inr (.inl ⟨_, _, rfl⟩)))
  case jsr addr => exact .inr (.inr (.inr (.inr (.inl ⟨addr, rfl⟩))))
  case rts => exact .inr (.inr (.inr (.inr (.inr (.inl rfl)))))
  case hlt => cases h; exact .inr (.inr (.inr (.inr (.inr (.inr ⟨rfl, rfl⟩)))))
  case nop => cases h; exact .inr (.inr (.inr (.inl ⟨0, _, by simp; rfl⟩)))
  all_goals
    simp only [exec_ldaImm, exec_ldxImm, exec_ldyImm, exec_ldaAbs, exec_ldxAbs, exec_ldyAbs, exec_ldaAbx, exec_ldyAbx,
      exec_ldaAby, exec_ldxAby, exec_ldaIzx, exec_ldaIzy, exec_adcAbs, exec_staAbs, exec_stxAbs, exec_inx, exec_iny,
      exec_dex, exec_dey, exec_tax, exec_txa, exec_tay, exec_tya, exec_clc, exec_sec, exec_cli, exec_sei, exec_cld,
      exec_sed, exec_clv, exec_jmpAbs, exec_jmpInd] at h
    cases h
    first
      | exact .inl ⟨_, _, _, rfl⟩
      | exact .inr (.inl ⟨_, _, rfl⟩)
      | exact .inr (.inr (.inl ⟨_, _, by decide, by decide, rfl⟩))
      | exact .inr (.inr (.inr (.inl ⟨_, _, rfl⟩)))

end Sys2Proof.Machine
end

