-- ==== Sys2Proof/Laws/Step.lean ====
section
/-!
SUPPORT. What an instruction and a step can do, said once: the fields no instruction touches, what the instruction ahead can
be, and the three ways a step answers a next state.
-/

namespace Sys2Proof.Machine

open Sys2Proof

/-! ## Instructions -/

/-- No instruction touches IR, the breakpoint manager, the parameters or the outputs (10_state R34, 48 R214). -/
theorem exec_keeps {i : Instr} {s t : State} (h : exec i s = .next t) :
    t.ir = s.ir ∧ t.bpm = s.bpm ∧ t.cfg = s.cfg ∧ t.event = s.event ∧ t.trace = s.trace := by
  cases i
  case bne rel =>
    simp only [exec, execBne] at h
    split at h <;> (cases h; simp)
  all_goals
    simp only [exec, execHlt, execClc, execJsr, execSec, execJmpAbs, execCli, execRts, execJmpInd, execAdcAbs, execSei,
      execDey, execTxa, execStaAbs, execStxAbs, execTya, execLdyImm, execLdaIzx, execLdxImm, execTay, execLdaImm, execTax,
      execLdyAbs, execLdaAbs, execLdxAbs, execLdaIzy, execClv, execLdaAby, execLdyAbx, execLdaAbx, execLdxAby, execIny,
      execDex, execCld, execInx, execNop, execSed, State.immOperand_eq, State.absAddr_eq, State.abxAddr_eq,
      State.abyAddr_eq, State.izxAddr_eq, State.izyAddr_eq, State.indTarget_eq, loadFrom_eq, loadValue_eq, storeTo_eq,
      setAndAdvance_eq, writeFlag_eq, State.memRead1_eq] at h
    cases h
    simp

/-! ## The instruction ahead -/

/-- The operand bytes are always there: an operation's instruction is read from any two bytes. -/
theorem decodeOperands_two (op : Op) (b1 b2 : Byte) : ∃ i rest, decodeOperands op [b1, b2] = .ok (i, rest) := by
  cases op <;> exact ⟨_, _, rfl⟩

theorem Op.build_ne_hlt (op : Op) (b1 b2 : Byte) : op.build b1 b2 ≠ .hlt := by
  cases op <;> simp [Op.build]

/-- An instruction built from an operation is of that operation. -/
theorem Op.op_build (op : Op) (b1 b2 : Byte) : (op.build b1 b2).op = some op := by
  cases op <;> rfl

theorem decodeOperands_op {op : Op} {bs rest : List Byte} {i : Instr} (h : decodeOperands op bs = .ok (i, rest)) :
    i.op = some op := by
  unfold decodeOperands at h
  split at h <;> cases h <;> exact Op.op_build ..

/-- The sentinel is ahead exactly when IR is 0x00 (30_encoding R84). -/
theorem State.instrAhead_hlt_iff (s : State) : s.instrAhead = .ok .hlt ↔ s.ir = haltOpcode := by
  unfold State.instrAhead State.instrBytes decode classify
  by_cases h : s.ir = haltOpcode
  · simp [h]
  · simp only [h, if_false, iff_false]
    cases hf : findRow s.cfg.table s.ir with
    | none => simp
    | some r =>
      obtain ⟨i, rest, hi⟩ := decodeOperands_two r.op (s.byteAt (s.pc + 1)) (s.byteAt (s.pc + 2))
      have := decodeOperands_op hi
      simp only [hi]
      intro e
      cases e
      simp [Instr.op] at this

/-- No instruction is ahead exactly when IR is neither the sentinel nor in the table (40 R103). -/
theorem State.instrAhead_error_iff (s : State) (e : DecodeError) :
    s.instrAhead = .error e ↔
      s.ir ≠ haltOpcode ∧ findRow s.cfg.table s.ir = none ∧ e = .unknownOpcode s.ir := by
  unfold State.instrAhead State.instrBytes decode classify
  by_cases h : s.ir = haltOpcode
  · simp [h]
  · simp only [h, if_false]
    cases hf : findRow s.cfg.table s.ir with
    | none =>
      constructor
      · intro he
        cases he
        exact ⟨h, rfl, rfl⟩
      · rintro ⟨-, -, rfl⟩
        rfl
    | some r =>
      obtain ⟨i, rest, hi⟩ := decodeOperands_two r.op (s.byteAt (s.pc + 1)) (s.byteAt (s.pc + 2))
      simp only [hi]
      constructor
      · intro he
        cases he
      · rintro ⟨-, hn, -⟩
        cases hn

/-- The instruction ahead is of the operation of IR's row. -/
theorem State.instrAhead_ok_op {s : State} {i : Instr} (h : s.instrAhead = .ok i) (hi : i ≠ .hlt) :
    ∃ r, findRow s.cfg.table s.ir = some r ∧ i.op = some r.op := by
  have hz : s.ir ≠ haltOpcode := by
    intro e
    rw [(s.instrAhead_hlt_iff).mpr e] at h
    cases h
    exact hi rfl
  unfold State.instrAhead State.instrBytes decode classify at h
  simp only [hz, if_false] at h
  cases hf : findRow s.cfg.table s.ir with
  | none => simp [hf] at h
  | some r =>
    obtain ⟨j, rest, hj⟩ := decodeOperands_two r.op (s.byteAt (s.pc + 1)) (s.byteAt (s.pc + 2))
    simp only [hf, hj] at h
    cases h
    exact ⟨r, rfl, decodeOperands_op hj⟩

/-! ## The step -/

/-- The three ways a step answers a next state: the fault is taken, the sentinel ends the run, or an instruction is executed
and its step finished. A step of a machine that is not running answers none. -/
theorem step_next_cases {s t : State} (h : step s = .next t) :
    s.run = .running ∧
    ((∃ e, s.instrAhead = .error e ∧ t = s.openStep.takeUnknownOpcode) ∨
     (s.instrAhead = .ok .hlt ∧ t = { s with event := .none, trace := none, run := .halted }) ∨
     (∃ i u, i ≠ .hlt ∧ s.instrAhead = .ok i ∧ exec i (s.openInstr i) = .next u ∧ t = u.finishStep)) := by
  unfold step stepMachine at h
  cases hr : s.run <;> simp only [hr] at h <;> try cases h
  refine ⟨rfl, ?_⟩
  unfold stepRunning at h
  split at h
  · next e he =>
    cases h
    exact .inl ⟨e, he, rfl⟩
  · next he =>
    cases h
    exact .inr (.inl ⟨he, rfl⟩)
  · next i hne he =>
    cases hx : exec i (s.openInstr i) with
    | next u =>
      simp only [hx, finishResult] at h
      cases h
      exact .inr (.inr ⟨i, u, hne, he, hx, rfl⟩)
    | fault f => simp [hx, finishResult] at h
    | refused r => simp [hx, finishResult] at h

/-- What the end of a step leaves alone: the registers, PC and memory (40 R106, 48 R214). -/
theorem State.finishStep_keeps (u : State) :
    u.finishStep.a = u.a ∧ u.finishStep.x = u.x ∧ u.finishStep.y = u.y ∧ u.finishStep.sp = u.sp ∧ u.finishStep.p = u.p ∧
    u.finishStep.pc = u.pc ∧ u.finishStep.mem = u.mem ∧ u.finishStep.cfg = u.cfg ∧ u.finishStep.ctx = none := by
  unfold State.finishStep State.fetchNext
  dsimp only
  split <;> simp [State.check]

/-- What the end of a step writes of the control state: IR is the byte at PC, and RUN is `Halted` if that is 0x00 (40 R106). -/
theorem State.finishStep_fetch (u : State) :
    u.finishStep.ir = u.byteAt u.pc ∧
    u.finishStep.run = if u.byteAt u.pc = haltOpcode then .halted else u.run := by
  unfold State.finishStep State.fetchNext
  have hb : u.check.closeCtx.byteAt u.check.closeCtx.pc = u.byteAt u.pc := by simp [State.byteAt, State.check]
  dsimp only
  rw [hb]
  split <;> simp [State.check, *]

end Sys2Proof.Machine
end

