-- ==== Sys2Proof/Laws/PerInstr.lean ====
section
/-!
SUPPORT. Statements about every instruction as syntax, one lemma per constructor.
-/

namespace Sys2Proof.Laws.EncodedLength

open Sys2Proof

/-- Under the default opcode map the instruction is well formed, and its encoding has as many bytes as its format says
(30_encoding R81, R86). -/
def Statement (i : Instr) : Prop :=
  i.wf defaultTable = true ∧ (encode defaultTable i).map List.length = some i.length

theorem hlt : Statement .hlt := ⟨rfl, rfl⟩
theorem clc : Statement .clc := ⟨rfl, rfl⟩
theorem jsr (addr : Word) : Statement (.jsr addr) := ⟨rfl, rfl⟩
theorem sec : Statement .sec := ⟨rfl, rfl⟩
theorem jmpAbs (addr : Word) : Statement (.jmpAbs addr) := ⟨rfl, rfl⟩
theorem cli : Statement .cli := ⟨rfl, rfl⟩
theorem rts : Statement .rts := ⟨rfl, rfl⟩
theorem jmpInd (ptr : Word) : Statement (.jmpInd ptr) := ⟨rfl, rfl⟩
theorem adcAbs (addr : Word) : Statement (.adcAbs addr) := ⟨rfl, rfl⟩
theorem sei : Statement .sei := ⟨rfl, rfl⟩
theorem dey : Statement .dey := ⟨rfl, rfl⟩
theorem txa : Statement .txa := ⟨rfl, rfl⟩
theorem staAbs (addr : Word) : Statement (.staAbs addr) := ⟨rfl, rfl⟩
theorem stxAbs (addr : Word) : Statement (.stxAbs addr) := ⟨rfl, rfl⟩
theorem tya : Statement .tya := ⟨rfl, rfl⟩
theorem ldyImm (imm : Byte) : Statement (.ldyImm imm) := ⟨rfl, rfl⟩
theorem ldaIzx (zp : Byte) : Statement (.ldaIzx zp) := ⟨rfl, rfl⟩
theorem ldxImm (imm : Byte) : Statement (.ldxImm imm) := ⟨rfl, rfl⟩
theorem tay : Statement .tay := ⟨rfl, rfl⟩
theorem ldaImm (imm : Byte) : Statement (.ldaImm imm) := ⟨rfl, rfl⟩
theorem tax : Statement .tax := ⟨rfl, rfl⟩
theorem ldyAbs (addr : Word) : Statement (.ldyAbs addr) := ⟨rfl, rfl⟩
theorem ldaAbs (addr : Word) : Statement (.ldaAbs addr) := ⟨rfl, rfl⟩
theorem ldxAbs (addr : Word) : Statement (.ldxAbs addr) := ⟨rfl, rfl⟩
theorem ldaIzy (zp : Byte) : Statement (.ldaIzy zp) := ⟨rfl, rfl⟩
theorem clv : Statement .clv := ⟨rfl, rfl⟩
theorem ldaAby (addr : Word) : Statement (.ldaAby addr) := ⟨rfl, rfl⟩
theorem ldyAbx (addr : Word) : Statement (.ldyAbx addr) := ⟨rfl, rfl⟩
theorem ldaAbx (addr : Word) : Statement (.ldaAbx addr) := ⟨rfl, rfl⟩
theorem ldxAby (addr : Word) : Statement (.ldxAby addr) := ⟨rfl, rfl⟩
theorem iny : Statement .iny := ⟨rfl, rfl⟩
theorem dex : Statement .dex := ⟨rfl, rfl⟩
theorem bne (rel : Byte) : Statement (.bne rel) := ⟨rfl, rfl⟩
theorem cld : Statement .cld := ⟨rfl, rfl⟩
theorem inx : Statement .inx := ⟨rfl, rfl⟩
theorem nop : Statement .nop := ⟨rfl, rfl⟩
theorem sed : Statement .sed := ⟨rfl, rfl⟩

end Sys2Proof.Laws.EncodedLength
end

