-- ==== Sys2Proof/Certificates/Slice0/Obligations.lean ====
section
/-!
DEFINITION. The statements for the provers, each a `def Obligations.<Name> : Prop`, and the words they are written in. Each
docstring names the rule of spec/ that it formalises.
-/

namespace Sys2Proof.Claims

open Sys2Proof Sys2Proof.Machine

/-! ## The words of the statements, written with numbers and bits where the model uses its own operations -/

/-- Bits 7..0 of a 16-bit value. -/
def low (w : Word) : Byte := BitVec.ofNat 8 w.toNat

/-- Bits 15..8 of a 16-bit value. -/
def high (w : Word) : Byte := BitVec.ofNat 8 (w.toNat / 256)

/-- `{MEM[k + 1], MEM[k]}`, the addresses modulo 65536 (20_memory R52). -/
def memWord (s : State) (k : Word) : Word :=
  BitVec.ofNat 16 ((s.byteAt k).toNat + 256 * (s.byteAt (k + 1)).toNat)

/-- The pointer that IZX and IZY read at the number `n`: at `n` modulo 65536, or within page zero under `ZP_WRAP`
(40 R113, R114). -/
def zeroPagePtr (s : State) (n : Nat) : Word :=
  if s.cfg.zpWrap then
    BitVec.ofNat 16 ((s.byteAt (BitVec.ofNat 16 (n % 256))).toNat + 256 * (s.byteAt (BitVec.ofNat 16 ((n + 1) % 256))).toNat)
  else memWord s (BitVec.ofNat 16 n)

/-- Every byte of memory reads as before. -/
def SameMem (s t : State) : Prop := ∀ k : Word, t.byteAt k = s.byteAt k

/-- Every byte of memory but those listed reads as before. -/
def SameMemBut (ks : List Word) (s t : State) : Prop := ∀ k : Word, k ∉ ks → t.byteAt k = s.byteAt k

/-- The three general registers hold what they held. -/
def SameRegs (s t : State) : Prop := ∀ q : Reg, t.reg q = s.reg q

/-- The control state, the breakpoint manager, the parameters and the outputs are untouched. -/
def SameRest (s t : State) : Prop :=
  t.ir = s.ir ∧ t.run = s.run ∧ t.bpm = s.bpm ∧ t.cfg = s.cfg ∧ t.event = s.event ∧ t.trace = s.trace

/-- The context has `n` more cycle units and is otherwise the same. -/
def Charged (n : Nat) (s t : State) : Prop := t.ctx = s.ctx.map (fun c => { c with cycles := c.cycles + n })

/-- PC is `len` past the instruction's address, modulo 65536. -/
def PcPast (len : Nat) (s t : State) : Prop := t.pc.toNat = (s.start.toNat + len) % 65536

/-- The flags `q` are the flags `p` with Z (bit 1) set iff `v` is 0 and N (bit 7) the top bit of `v`, and no other bit
changed (40 R109). -/
def ZNOf (v p q : Byte) : Prop :=
  (q.getLsbD 1 = true ↔ v = 0) ∧ (q.getLsbD 7 = true ↔ 128 ≤ v.toNat) ∧
  ∀ k < 8, k ≠ 1 → k ≠ 7 → q.getLsbD k = p.getLsbD k

/-- The default opcode map encodes the instruction in these bytes and reads it back from them. -/
def EncodedAs (i : Instr) (bs : List Byte) : Prop :=
  encode defaultTable i = some bs ∧ decode defaultTable bs = .ok (i, [])

/-- The instruction, encoded in `bs`, completes; it gives register `r` the value `v`, sets Z and N of it, moves PC past its
bytes, spends `n` cycle units, and changes nothing else. -/
def SetsReg (i : Instr) (bs : List Byte) (r : Reg) (v : Byte) (n : Nat) (s : State) : Prop :=
  EncodedAs i bs ∧ ∃ t, exec i s = .next t ∧ t.reg r = v ∧ (∀ q, q ≠ r → t.reg q = s.reg q) ∧ ZNOf v s.p t.p ∧
    PcPast bs.length s t ∧ t.sp = s.sp ∧ SameMem s t ∧ Charged n s t ∧ SameRest s t

/-- The instruction, encoded in `bs`, completes; it stores `v` at `k`, moves PC past its bytes, spends three cycle units, and
changes nothing else. -/
def StoresByte (i : Instr) (bs : List Byte) (k : Word) (v : Byte) (s : State) : Prop :=
  EncodedAs i bs ∧ ∃ t, exec i s = .next t ∧ t.byteAt k = v ∧ SameMemBut [k] s t ∧ SameRegs s t ∧ t.p = s.p ∧
    t.sp = s.sp ∧ PcPast bs.length s t ∧ Charged 3 s t ∧ SameRest s t

/-- The one-byte instruction `b` completes; it gives bit `k` of P the value `v`, moves PC past its byte, and changes nothing
else. -/
def WritesBit (i : Instr) (b : Byte) (k : Nat) (v : Bool) (s : State) : Prop :=
  EncodedAs i [b] ∧ ∃ t, exec i s = .next t ∧ t.p.getLsbD k = v ∧ (∀ j < 8, j ≠ k → t.p.getLsbD j = s.p.getLsbD j) ∧
    PcPast 1 s t ∧ SameRegs s t ∧ t.sp = s.sp ∧ SameMem s t ∧ Charged 0 s t ∧ SameRest s t

/-- The instruction completes with PC at `target`, `n` cycle units spent, and nothing else changed. -/
def GoesTo (i : Instr) (target : Word) (n : Nat) (s : State) : Prop :=
  ∃ t, exec i s = .next t ∧ t.pc = target ∧ SameRegs s t ∧ t.p = s.p ∧ t.sp = s.sp ∧ SameMem s t ∧ Charged n s t ∧
    SameRest s t

/-- The general register an instruction writes, if any (41, 42, 45). -/
def destReg : Instr → Option Reg
  | .ldaImm _ | .ldaAbs _ | .ldaAbx _ | .ldaAby _ | .ldaIzx _ | .ldaIzy _ | .adcAbs _ | .txa | .tya => some .a
  | .ldxImm _ | .ldxAbs _ | .ldxAby _ | .tax | .inx | .dex => some .x
  | .ldyImm _ | .ldyAbs _ | .ldyAbx _ | .tay | .iny | .dey => some .y
  | .hlt | .clc | .jsr _ | .sec | .jmpAbs _ | .cli | .rts | .jmpInd _ | .sei | .staAbs _ | .stxAbs _ => none
  | .clv | .bne _ | .cld | .nop | .sed => none

/-- The addresses an instruction stores to, computed as its meaning computes them (41 R142, R143, 44 R173). -/
def storedAt (i : Instr) (s : State) : List Word :=
  match i with
  | .staAbs addr => [(s.absAddr addr).1]
  | .stxAbs addr => [(s.absAddr addr).1]
  | .jsr _ => [stackAddr s.sp, stackAddr (s.sp - 1)]
  | _ => []

/-- `CTX.cycles` at the check of an instruction, by the table of 40 R117; `taken` is whether a BNE is taken. -/
def cyclesOf (i : Instr) (taken : Bool) : Nat :=
  match i with
  | .ldaImm _ | .ldxImm _ | .ldyImm _ => 1
  | .ldaAbs _ | .ldxAbs _ | .ldyAbs _ | .ldaAbx _ | .ldaAby _ | .ldxAby _ | .ldyAbx _ | .adcAbs _ => 3
  | .staAbs _ | .stxAbs _ => 3
  | .ldaIzx _ | .ldaIzy _ => 4
  | .bne _ => if taken then 2 else 1
  | .jmpAbs _ => 2
  | .jmpInd _ => 4
  | .jsr _ => 4
  | .rts => 2
  | .hlt | .clc | .sec | .cli | .sei | .cld | .sed | .clv | .nop => 0
  | .inx | .iny | .dex | .dey | .tax | .txa | .tay | .tya => 0

/-- A set after a stream of instructions on each of which it was reached. -/
def afterStream (b : BreakSet) (os : List (Elem → Nat)) : BreakSet := os.foldl (fun c o => (c.fireTest o).1) b

/-- Two outcomes are the same for the program: the same fault or refusal, or states that differ at most in the breakpoint
manager and the event. -/
def SameForProgram : Result → Result → Prop
  | .next t, .next u => u = { t with bpm := u.bpm, event := u.event }
  | .fault f, .fault g => f = g
  | .refused q, .refused r => q = r
  | _, _ => False

/-- The default table's descriptor of an opcode byte: length, base and maximum extra cycles (30 R81, 70 R274). -/
def describes (b : Byte) (len base extra : Nat) : Prop :=
  lookup defaultTable b = some { length := len, base := base, extra := extra }

end Sys2Proof.Claims

open Sys2Proof Sys2Proof.Machine Sys2Proof.Claims

/-! ## Encoding -/

/-- Words written out from the table of 30_encoding R83, one of every family at least, decode to what they stand for. -/
def Obligations.HandWrittenWordsDecode : Prop :=
  decodeTableWord 16 0x05A9 = some (.ldaImm 0x05) ∧ decodeTableWord 24 0x0300AD = some (.ldaAbs 0x0300) ∧
  decodeTableWord 24 0x02FFBD = some (.ldaAbx 0x02FF) ∧ decodeTableWord 24 0x0300BE = some (.ldxAby 0x0300) ∧
  decodeTableWord 16 0x0CA1 = some (.ldaIzx 0x0C) ∧ decodeTableWord 16 0x10B1 = some (.ldaIzy 0x10) ∧
  decodeTableWord 24 0x02008D = some (.staAbs 0x0200) ∧ decodeTableWord 8 0xE8 = some .inx ∧
  decodeTableWord 8 0xAA = some .tax ∧ decodeTableWord 8 0x38 = some .sec ∧ decodeTableWord 16 0xFCD0 = some (.bne 0xFC) ∧
  decodeTableWord 24 0x00206C = some (.jmpInd 0x0020) ∧ decodeTableWord 24 0x060A20 = some (.jsr 0x060A) ∧
  decodeTableWord 8 0x00 = some .hlt ∧ decodeTableWord 24 0x06106D = some (.adcAbs 0x0610) ∧ decodeTableWord 8 0x02 = none

/-- Under every table that meets D1, every instruction has an encoding, and decoding its bytes, whatever follows them, gives
it back with every operand bit (30_encoding R80, R82, R87). That such a table has one row per operation is log 18. -/
def Obligations.DecodeOfEncode : Prop :=
  ∀ (c : Config) (i : Instr) (rest : List Byte), c.wf = true →
    ∃ bs, encode c.table i = some bs ∧ decode c.table (bs ++ rest) = .ok (i, rest)

/-- Under every table that meets D1, the bytes an instruction was decoded from are its encoding followed by what was left:
no two encodings of one instruction (30_encoding R80, R82). That such a table has one row per operation is log 18. -/
def Obligations.EncodeOfDecode : Prop :=
  ∀ (c : Config) (i : Instr) (bs rest : List Byte), c.wf = true → decode c.table bs = .ok (i, rest) →
    ∃ es, encode c.table i = some es ∧ bs = es ++ rest

/-- R87: decoding is total on the 256 byte values, 0x00 gives Halt, the 36 others of R83 an instruction, the remaining 219
Unknown; and every value of the operand bytes is legal. -/
def Obligations.EveryByteClassified : Prop :=
  (∀ b : Byte, classify defaultTable b = .halt ↔ b = 0x00) ∧
  ((List.range 256).countP (fun n => (findRow defaultTable (BitVec.ofNat 8 n)).isSome)) = 36 ∧
  ((List.range 256).countP (fun n => classify defaultTable (BitVec.ofNat 8 n) == .unknown)) = 219 ∧
  (∀ b b1 b2 : Byte, classify defaultTable b ≠ .unknown → ∃ i rest, decode defaultTable [b, b1, b2] = .ok (i, rest))

/-- R86: the length of an instruction is a function of its opcode byte alone, and decoding takes exactly that many bytes;
under every table. -/
def Obligations.LengthByOpcodeAlone : Prop :=
  ∀ (t : List Row) (b : Byte) (r1 r2 q1 q2 : List Byte) (i1 i2 : Instr),
    decode t (b :: r1) = .ok (i1, q1) → decode t (b :: r2) = .ok (i2, q2) →
    i1.length = i2.length ∧ (b :: r1).length = i1.length + q1.length

/-! ## Memory and stack -/

/-- R52: a word read is two byte reads, low byte at `addr`, high byte at `addr + 1` modulo 65536, two cycle units, nothing
else changed. -/
def Obligations.WordReadIsLittleEndian : Prop :=
  ∀ (s : State) (k : Word),
    (s.memRead2 k).1.toNat = (s.byteAt k).toNat + 256 * (s.byteAt (BitVec.ofNat 16 (k.toNat + 1))).toNat ∧
    (s.memRead2 k).2 = { s with ctx := (s.memRead2 k).2.ctx } ∧ Charged 2 s (s.memRead2 k).2

/-- R51, R53 and R57: a byte written is read back, every other byte reads as before, each access adds one cycle unit, and
nothing else changes; a read changes only the cycle count. The last clause, that the list of cells stays canonical, is about
the model's own form of memory and no rule of the spec (log 20). -/
def Obligations.ByteWriteThenRead : Prop :=
  ∀ (s : State) (k : Word) (v : Byte),
    ((s.memWrite k v).memRead1 k).1 = v ∧ SameMemBut [k] s (s.memWrite k v) ∧ Charged 1 s (s.memWrite k v) ∧
    s.memWrite k v = { s with mem := (s.memWrite k v).mem, ctx := (s.memWrite k v).ctx } ∧
    (s.memRead1 k).1 = s.byteAt k ∧ (s.memRead1 k).2 = { s with ctx := (s.memRead1 k).2.ctx } ∧
    Charged 1 s (s.memRead1 k).2 ∧ (Memory.wf s.mem → Memory.wf (s.memWrite k v).mem)

/-- R58: before reset the load port stores byte `i` at `addr + i` modulo 65536, a later byte at the same address winning,
leaves every other byte alone and charges nothing. -/
def Obligations.LoadProgramReadsBack : Prop :=
  ∀ (s : State) (addr : Word) (bytes : List Byte), s.run = .off →
    ∃ t, hostMove (.loadProgram addr bytes) s = .next t ∧ t = { s with mem := t.mem } ∧
      (∀ i : Fin bytes.length, (∀ j : Fin bytes.length, i < j → j.val % 65536 ≠ i.val % 65536) →
        t.byteAt (BitVec.ofNat 16 (addr.toNat + i.val)) = bytes[i]) ∧
      (∀ k : Word, (∀ i : Fin bytes.length, k ≠ BitVec.ofNat 16 (addr.toNat + i.val)) → t.byteAt k = s.byteAt k)

/-- R61, R62 and R65: a push writes at 0x0100 + SP, in the stack page, and takes one from SP modulo 256; a pop adds one to
SP modulo 256 and reads there; a pop after a push gives the value and SP back, for every SP. -/
def Obligations.PushAndPop : Prop :=
  ∀ (s : State) (v : Byte),
    (s.push v).byteAt (BitVec.ofNat 16 (256 + s.sp.toNat)) = v ∧
    SameMemBut [BitVec.ofNat 16 (256 + s.sp.toNat)] s (s.push v) ∧
    (s.push v).sp.toNat = (s.sp.toNat + 255) % 256 ∧
    s.push v = { s with sp := (s.push v).sp, mem := (s.push v).mem, ctx := (s.push v).ctx } ∧ Charged 1 s (s.push v) ∧
    s.pop.1 = s.byteAt (BitVec.ofNat 16 (256 + (s.sp.toNat + 1) % 256)) ∧ s.pop.2.sp.toNat = (s.sp.toNat + 1) % 256 ∧
    s.pop.2 = { s with sp := s.pop.2.sp, ctx := s.pop.2.ctx } ∧ Charged 1 s s.pop.2 ∧
    (s.push v).pop.1 = v ∧ (s.push v).pop.2.sp = s.sp

/-! ## Loads and stores -/

/-- R130, R136, R139: the immediate loads. -/
def Obligations.LoadImmediateResult : Prop :=
  ∀ (s : State) (imm : Byte),
    SetsReg (.ldaImm imm) [0xA9, imm] .a imm 1 s ∧ SetsReg (.ldxImm imm) [0xA2, imm] .x imm 1 s ∧
    SetsReg (.ldyImm imm) [0xA0, imm] .y imm 1 s

/-- R131, R137, R140: the absolute loads. -/
def Obligations.LoadAbsoluteResult : Prop :=
  ∀ (s : State) (addr : Word),
    SetsReg (.ldaAbs addr) [0xAD, low addr, high addr] .a (s.byteAt addr) 3 s ∧
    SetsReg (.ldxAbs addr) [0xAE, low addr, high addr] .x (s.byteAt addr) 3 s ∧
    SetsReg (.ldyAbs addr) [0xAC, low addr, high addr] .y (s.byteAt addr) 3 s

/-- R132, R133, R138, R141: the indexed loads; the sum of base and unsigned index wraps at 16 bits. -/
def Obligations.LoadIndexedResult : Prop :=
  ∀ (s : State) (addr : Word),
    SetsReg (.ldaAbx addr) [0xBD, low addr, high addr] .a (s.byteAt (BitVec.ofNat 16 (addr.toNat + s.x.toNat))) 3 s ∧
    SetsReg (.ldaAby addr) [0xB9, low addr, high addr] .a (s.byteAt (BitVec.ofNat 16 (addr.toNat + s.y.toNat))) 3 s ∧
    SetsReg (.ldxAby addr) [0xBE, low addr, high addr] .x (s.byteAt (BitVec.ofNat 16 (addr.toNat + s.y.toNat))) 3 s ∧
    SetsReg (.ldyAbx addr) [0xBC, low addr, high addr] .y (s.byteAt (BitVec.ofNat 16 (addr.toNat + s.x.toNat))) 3 s

/-- R134: LDA (zp,X), under both settings of `ZP_WRAP`. -/
def Obligations.LdaPreIndexedResult : Prop :=
  ∀ (s : State) (zp : Byte),
    SetsReg (.ldaIzx zp) [0xA1, zp] .a (s.byteAt (zeroPagePtr s (zp.toNat + s.x.toNat))) 4 s

/-- R135: LDA (zp),Y, under both settings of `ZP_WRAP`; the addition of Y wraps at 16 bits. -/
def Obligations.LdaPostIndexedResult : Prop :=
  ∀ (s : State) (zp : Byte),
    SetsReg (.ldaIzy zp) [0xB1, zp] .a
      (s.byteAt (BitVec.ofNat 16 ((zeroPagePtr s zp.toNat).toNat + s.y.toNat))) 4 s

/-- D13: the two settings of `ZP_WRAP` give LDA (zp,X) the same result whenever zp + X is at most 0xFE, and LDA (zp),Y
whenever zp is at most 0xFE. -/
def Obligations.ZpWrapAgreesInRange : Prop :=
  ∀ (s : State) (zp : Byte) (w : Bool),
    (zp.toNat + s.x.toNat ≤ 0xFE → ∃ t u, exec (.ldaIzx zp) s = .next t ∧
      exec (.ldaIzx zp) { s with cfg := { s.cfg with zpWrap := w } } = .next u ∧ u = { t with cfg := u.cfg }) ∧
    (zp.toNat ≤ 0xFE → ∃ t u, exec (.ldaIzy zp) s = .next t ∧
      exec (.ldaIzy zp) { s with cfg := { s.cfg with zpWrap := w } } = .next u ∧ u = { t with cfg := u.cfg })

/-- R142, R143: the stores. -/
def Obligations.StoreAbsoluteResult : Prop :=
  ∀ (s : State) (addr : Word),
    StoresByte (.staAbs addr) [0x8D, low addr, high addr] (s.absAddr addr).1 s.a s ∧
    StoresByte (.stxAbs addr) [0x8E, low addr, high addr] (s.absAddr addr).1 s.x s ∧ (s.absAddr addr).1 = addr

/-! ## Increment, decrement, transfer, flags -/

/-- R150 to R153: the increments and decrements wrap at 8 bits. -/
def Obligations.IncDecResult : Prop :=
  ∀ s : State,
    SetsReg .inx [0xE8] .x (BitVec.ofNat 8 (s.x.toNat + 1)) 0 s ∧ SetsReg .iny [0xC8] .y (BitVec.ofNat 8 (s.y.toNat + 1)) 0 s ∧
    SetsReg .dex [0xCA] .x (BitVec.ofNat 8 (s.x.toNat + 255)) 0 s ∧ SetsReg .dey [0x88] .y (BitVec.ofNat 8 (s.y.toNat + 255)) 0 s

/-- R154 to R157: the transfers. -/
def Obligations.TransferResult : Prop :=
  ∀ s : State, SetsReg .tax [0xAA] .x s.a 0 s ∧ SetsReg .txa [0x8A] .a s.x 0 s ∧ SetsReg .tay [0xA8] .y s.a 0 s ∧
    SetsReg .tya [0x98] .a s.y 0 s

/-- R160 to R166: each flag instruction writes exactly one bit of P. -/
def Obligations.FlagInstructionResult : Prop :=
  ∀ s : State, WritesBit .clc 0x18 0 false s ∧ WritesBit .sec 0x38 0 true s ∧ WritesBit .cli 0x58 2 false s ∧
    WritesBit .sei 0x78 2 true s ∧ WritesBit .cld 0xD8 3 false s ∧ WritesBit .sed 0xF8 3 true s ∧ WritesBit .clv 0xB8 6 false s

/-- R167: NOP advances PC by one and does nothing else. -/
def Obligations.NopResult : Prop :=
  ∀ s : State, EncodedAs .nop [0xEA] ∧ GoesTo .nop (BitVec.ofNat 16 (s.start.toNat + 1)) 0 s

/-! ## Control transfer -/

/-- R170: BNE goes to `s + 2 + off` modulo 65536 with two cycle units if Z is clear, to `s + 2` with one if Z is set. -/
def Obligations.BneResult : Prop :=
  ∀ (s : State) (rel : Byte), EncodedAs (.bne rel) [0xD0, rel] ∧
    (s.p.getLsbD 1 = false → GoesTo (.bne rel) (BitVec.ofInt 16 (s.start.toNat + 2 + rel.toInt)) 2 s) ∧
    (s.p.getLsbD 1 = true → GoesTo (.bne rel) (BitVec.ofNat 16 (s.start.toNat + 2)) 1 s)

/-- R171, R172: the jumps; the indirect one takes the word at the pointer with no page wrap. -/
def Obligations.JumpResult : Prop :=
  ∀ (s : State) (w : Word), EncodedAs (.jmpAbs w) [0x4C, low w, high w] ∧ GoesTo (.jmpAbs w) w 2 s ∧
    EncodedAs (.jmpInd w) [0x6C, low w, high w] ∧ GoesTo (.jmpInd w) (memWord s w) 4 s

/-- R173: JSR stores the low byte of `s + 2` at 0x0100 + SP and the high byte at 0x0100 + ((SP - 1) mod 256), takes two from
SP modulo 256, goes to its operand with four cycle units, and changes nothing else. -/
def Obligations.JsrResult : Prop :=
  ∀ (s : State) (addr : Word), EncodedAs (.jsr addr) [0x20, low addr, high addr] ∧
    ∃ t, exec (.jsr addr) s = .next t ∧ t.pc = addr ∧ t.sp.toNat = (s.sp.toNat + 254) % 256 ∧
      t.byteAt (stackAddr s.sp) = BitVec.ofNat 8 (s.start.toNat + 2) ∧
      t.byteAt (stackAddr (s.sp - 1)) = BitVec.ofNat 8 ((s.start.toNat + 2) % 65536 / 256) ∧
      SameMemBut [stackAddr s.sp, stackAddr (s.sp - 1)] s t ∧
      (stackAddr s.sp).toNat = 256 + s.sp.toNat ∧ (stackAddr (s.sp - 1)).toNat = 256 + (s.sp.toNat + 255) % 256 ∧
      SameRegs s t ∧ t.p = s.p ∧ Charged 4 s t ∧ SameRest s t

/-- R174: RTS pops the high byte, then the low byte, and goes to their value plus one; SP gains two modulo 256; nothing else
changes, the stacked bytes included. -/
def Obligations.RtsResult : Prop :=
  ∀ s : State, EncodedAs .rts [0x60] ∧
    ∃ t, exec .rts s = .next t ∧ t.sp.toNat = (s.sp.toNat + 2) % 256 ∧
      t.pc.toNat = (256 * (s.byteAt (stackAddr (s.sp + 1))).toNat + (s.byteAt (stackAddr (s.sp + 2))).toNat + 1) % 65536 ∧
      SameMem s t ∧ SameRegs s t ∧ t.p = s.p ∧ Charged 2 s t ∧ SameRest s t

/-- R174 (d): RTS after JSR, from whatever context the RTS runs in, is at the instruction after the call with SP as before
it, for every SP. -/
def Obligations.JsrThenRtsReturns : Prop :=
  ∀ (s t : State) (addr : Word) (c : Option Ctx), exec (.jsr addr) s = .next t →
    ∃ u, exec .rts { t with ctx := c } = .next u ∧ PcPast 3 s u ∧ u.sp = s.sp

/-- R175: the sentinel's one effect is that RUN becomes `Halted`; it changes no register, no memory and no context. In a run
that effect is the fetch's (`StepEndsWithFetch`); that the arm of `exec` has it too is the model's reading (log 14). -/
def Obligations.SentinelResult : Prop :=
  EncodedAs .hlt [0x00] ∧ ∀ s : State, exec .hlt s = .next { s with run := .halted }

/-! ## Arithmetic -/

/-- R180: ADC gives A the sum A + M + C modulo 256, whatever D holds; C and V are not written. -/
def Obligations.AdcResult : Prop :=
  ∀ (s : State) (addr : Word),
    SetsReg (.adcAbs addr) [0x6D, low addr, high addr] .a
      (BitVec.ofNat 8 (s.a.toNat + (s.byteAt addr).toNat + if s.p.getLsbD 0 then 1 else 0)) 3 s

/-- R109: SetZN writes Z and N of the value and no other bit; the two are never both set. -/
def Obligations.SetZNRule : Prop :=
  ∀ (s : State) (v : Byte), ZNOf v s.p (s.setZN v).p ∧ s.setZN v = { s with p := (s.setZN v).p } ∧
    ¬ ((s.setZN v).p.getLsbD 1 = true ∧ (s.setZN v).p.getLsbD 7 = true)

/-! ## All instructions -/

/-- R104: each of the 36 instructions completes always, and leaves the run state alone. That `exec` of the sentinel, which the
spec never executes (R175), answers a next state too, with RUN `Halted`, is the model's reading (log 14). -/
def Obligations.EveryInstructionCompletes : Prop :=
  ∀ (i : Instr) (s : State), ∃ t, exec i s = .next t ∧ t.run = if i = .hlt then .halted else s.run

/-- R119 (b) and 42, 43 headers: an instruction changes memory at most at the addresses it stores to: one byte for STA and
STX, two for JSR, none for any other. -/
def Obligations.MemoryWriters : Prop :=
  ∀ (i : Instr) (s t : State), exec i s = .next t → SameMemBut (storedAt i s) s t

/-- R119 (c), R21 to R23 and R109: an instruction changes at most its one destination register, and sets Z and N of the value
it wrote there; one without a destination changes no register, and neither Z nor N. -/
def Obligations.RegisterWriters : Prop :=
  ∀ (i : Instr) (s t : State), exec i s = .next t →
    match destReg i with
    | some r => (∀ q, q ≠ r → t.reg q = s.reg q) ∧ ZNOf (t.reg r) s.p t.p
    | none => SameRegs s t ∧ t.p.getLsbD 1 = s.p.getLsbD 1 ∧ t.p.getLsbD 7 = s.p.getLsbD 7

/-- R25: only JSR and RTS change SP. -/
def Obligations.StackPointerWriters : Prop :=
  ∀ (i : Instr) (s t : State), exec i s = .next t → t.sp ≠ s.sp → (∃ addr, i = .jsr addr) ∨ i = .rts

/-- R27, R29, R30, R31, R33: C is changed by CLC and SEC only (never by ADC), I by CLI and SEI, D by CLD and SED, V by CLV
only and never from 0 to 1, and bits 4 and 5 by nothing. -/
def Obligations.FlagWriters : Prop :=
  ∀ (i : Instr) (s t : State), exec i s = .next t →
    (t.p.getLsbD 0 ≠ s.p.getLsbD 0 → i = .clc ∨ i = .sec) ∧ (t.p.getLsbD 2 ≠ s.p.getLsbD 2 → i = .cli ∨ i = .sei) ∧
    (t.p.getLsbD 3 ≠ s.p.getLsbD 3 → i = .cld ∨ i = .sed) ∧
    (t.p.getLsbD 6 ≠ s.p.getLsbD 6 → i = .clv ∧ t.p.getLsbD 6 = false) ∧
    t.p.getLsbD 4 = s.p.getLsbD 4 ∧ t.p.getLsbD 5 = s.p.getLsbD 5

/-- R115: every instruction but the jumps, JSR, RTS and a taken BNE moves PC past its own length. That `exec` of the sentinel,
which the spec never executes and which has no effect on any register (R175), keeps PC is the model's reading (log 14). -/
def Obligations.PcAdvance : Prop :=
  ∀ (i : Instr) (s t : State), exec i s = .next t →
    match i with
    | .jmpAbs _ | .jmpInd _ | .jsr _ | .rts => True
    | .hlt => t.pc = s.pc
    | .bne _ => s.p.getLsbD 1 = true → PcPast 2 s t
    | _ => PcPast i.length s t

/-! ## The instruction step -/

/-- R101: a running machine whose opcode in IR and operand bytes at PC + 1, PC + 2 decode to an instruction executes exactly
it, in a fresh context anchored at PC with the descriptor and the operand bytes, and then finishes the step. That the last
step's outputs are withdrawn first is the model's choice (log 3). The second clause is the model's reading too (log 14): R101
excludes a running machine whose IR is 0x00, and the model's step there is the sentinel's effect (R175) alone. -/
def Obligations.StepRunsDecodedInstruction : Prop :=
  ∀ (s : State) (i : Instr) (rest : List Byte), s.run = .running →
    decode s.cfg.table [s.ir, s.byteAt (s.pc + 1), s.byteAt (s.pc + 2)] = .ok (i, rest) →
    (i ≠ .hlt → ∀ u, exec i { s with
        ctx := some { start := s.pc, desc := lookup s.cfg.table s.ir, ops := i.operandBytes, cycles := 0 },
        event := .none, trace := none } = .next u → step s = .next u.finishStep) ∧
    (i = .hlt → step s = exec .hlt { s with event := .none, trace := none })

/-- R101, R103, R230: a running machine whose IR is neither 0x00 nor an opcode of the table takes the fault: RUN becomes
`Faulted(IR, PC)`, there is no event, and nothing else changes. That taking it is a next state is the model's choice (log 4),
that the context just opened stays is its reading of R101 (log 16), and the withdrawn outputs are its own fields (log 3). -/
def Obligations.UnknownOpcodeFaults : Prop :=
  ∀ s : State, s.run = .running → s.ir ≠ 0x00 → (∀ r ∈ s.cfg.table, r.opcode ≠ s.ir) →
    ∃ t, step s = .next t ∧ t = { s with
        run := .faulted s.ir s.pc, ctx := some { start := s.pc, desc := none, ops := [], cycles := 0 },
        event := .none, trace := none }

/-- R37, R266, D26: `Off`, `Halted` and `Faulted` have no step. The model stops there with a fault of its own name, a choice
of the model (log 5). -/
def Obligations.StoppedMachineHasNoStep : Prop :=
  ∀ s : State, (s.run = .off → step s = .fault .notReset) ∧ (s.run = .halted → step s = .fault .halted) ∧
    ∀ op pc, s.run = .faulted op pc → step s = .fault (.unknownOpcode op pc)

/-- R9, R232: the step of a running machine faults exactly when IR is an unknown opcode: nothing else is an exception. That
the fault, an outcome of its own in R9, is a next state with RUN `Faulted` is the model's choice (log 4), and that a running
machine whose IR is 0x00, which R34 excludes, steps without a fault is its reading (log 14). -/
def Obligations.OnlyUnknownOpcodeFaults : Prop :=
  ∀ s : State, s.run = .running →
    ∃ t, step s = .next t ∧ (t.run.isFaulted = true ↔ s.ir ≠ 0x00 ∧ ∀ r ∈ s.cfg.table, r.opcode ≠ s.ir)

/-- R106: the step of an executed instruction ends with IR the byte at PC, PC where the instruction left it, and RUN `Halted`
exactly when that byte is 0x00, else `Running`. And, since "nothing else happens in a step" (R101), A, X, Y, SP, P and memory
are as the instruction left them: what a statement says of `exec` holds of the step. -/
def Obligations.StepEndsWithFetch : Prop :=
  ∀ (s : State) (i : Instr), s.run = .running → s.instrAhead = .ok i → i ≠ .hlt →
    ∃ u t, exec i (s.openInstr i) = .next u ∧ step s = .next t ∧ t.pc = u.pc ∧ t.ir = t.byteAt t.pc ∧
      t.run = (if t.ir = 0x00 then .halted else .running) ∧ t.ctx = none ∧
      t.a = u.a ∧ t.x = u.x ∧ t.y = u.y ∧ t.sp = u.sp ∧ t.p = u.p ∧ t.mem = u.mem

/-- R105, R207, R211: after an executed instruction the evaluator is called once, on the state the instruction left, before
the fetch; its counters are kept and the event is the halt request exactly when single step is on or a set fired. -/
def Obligations.StepEvaluatesBreakpoints : Prop :=
  ∀ (s t u : State) (i : Instr), s.run = .running → s.instrAhead = .ok i → i ≠ .hlt →
    exec i (s.openInstr i) = .next u → step s = .next t →
    t.bpm.sets = (evaluate (observe u) 0 s.bpm.sets).1 ∧ t.bpm.singleStep = s.bpm.singleStep ∧
    t.event = (if s.bpm.singleStep = true ∨ (evaluate (observe u) 0 s.bpm.sets).2 ≠ none
      then .haltRequested (evaluate (observe u) 0 s.bpm.sets).2 else .none)

/-- R117: the cycle count at the check of an executed instruction is that of the table, counted from 0. -/
def Obligations.CyclesAtCheck : Prop :=
  ∀ (s : State) (i : Instr), s.run = .running → s.instrAhead = .ok i → i ≠ .hlt →
    ∃ t row, step s = .next t ∧ t.trace = some row ∧ row.cycles = cyclesOf i (!s.p.getLsbD 1)

/-- R118, R116: after an executed instruction the core exposes its address, opcode and operand bytes, the registers, flags
and PC after it, and its descriptor. They stand in the model's own field `trace` (log 3). -/
def Obligations.TraceAfterStep : Prop :=
  ∀ (s : State) (i : Instr), s.run = .running → s.instrAhead = .ok i → i ≠ .hlt →
    ∃ t row, step s = .next t ∧ t.trace = some row ∧ row.start = s.pc ∧ row.opcode = s.ir ∧
      row.ops = [s.byteAt (s.pc + 1), s.byteAt (s.pc + 2)].take (i.length - 1) ∧ row.a = t.a ∧ row.x = t.x ∧ row.y = t.y ∧
      row.sp = t.sp ∧ row.p = t.p ∧ row.pc = t.pc ∧ row.desc = lookup s.cfg.table s.ir ∧
      row.desc.map Descriptor.length = some i.length

/-- R69: a store to the very next opcode address is seen by the fetch that ends the same step. -/
def Obligations.StoreSeenByNextFetch : Prop :=
  ∀ s : State, s.run = .running →
    (s.instrAhead = .ok (.staAbs (s.pc + 3)) → ∃ t, step s = .next t ∧ t.pc = s.pc + 3 ∧ t.ir = s.a ∧
      t.run = if s.a = 0 then .halted else .running) ∧
    (s.instrAhead = .ok (.stxAbs (s.pc + 3)) → ∃ t, step s = .next t ∧ t.pc = s.pc + 3 ∧ t.ir = s.x ∧
      t.run = if s.x = 0 then .halted else .running)

/-- R40, R274: a step never changes the parameters, of which the instruction table is one. -/
def Obligations.StepKeepsParameters : Prop :=
  ∀ s t : State, step s = .next t → t.cfg = s.cfg

/-- R40, R81, R83, R274: the descriptor of every opcode in the default table: length, base and maximum extra cycles. The
opcode bytes are the default of the open parameter `OPCODE_MAP` (D1, log 7), the cycle numbers that of `DESC_CYCLES` (D17,
log 10); another table may have others. -/
def Obligations.DescriptorTable : Prop :=
  (describes 0xA9 2 2 0 ∧ describes 0xA2 2 2 0 ∧ describes 0xA0 2 2 0) ∧
  (describes 0xAD 3 4 0 ∧ describes 0xAE 3 4 0 ∧ describes 0xAC 3 4 0) ∧
  (describes 0xBD 3 4 1 ∧ describes 0xB9 3 4 1 ∧ describes 0xBE 3 4 1 ∧ describes 0xBC 3 4 1) ∧
  (describes 0xA1 2 6 0 ∧ describes 0xB1 2 5 1) ∧ (describes 0x8D 3 4 0 ∧ describes 0x8E 3 4 0 ∧ describes 0x6D 3 4 0) ∧
  (describes 0xE8 1 2 0 ∧ describes 0xC8 1 2 0 ∧ describes 0xCA 1 2 0 ∧ describes 0x88 1 2 0) ∧
  (describes 0xAA 1 2 0 ∧ describes 0x8A 1 2 0 ∧ describes 0xA8 1 2 0 ∧ describes 0x98 1 2 0) ∧
  (describes 0x18 1 2 0 ∧ describes 0x38 1 2 0 ∧ describes 0x58 1 2 0 ∧ describes 0x78 1 2 0 ∧ describes 0xD8 1 2 0 ∧
    describes 0xF8 1 2 0 ∧ describes 0xB8 1 2 0 ∧ describes 0xEA 1 2 0) ∧
  (describes 0xD0 2 2 2 ∧ describes 0x4C 3 3 0 ∧ describes 0x6C 3 5 0 ∧ describes 0x20 3 6 0 ∧ describes 0x60 1 6 0)

/-! ## Reset and the host -/

/-- R260, R262, R263, R264, R276: reset may be invoked in every run state; it writes PC, IR, SP, P and RUN, leaves no
context, and does not write A, X, Y, memory or the breakpoint manager. IR is the opcode of JMP absolute: 0x4C in the
default map. -/
def Obligations.ResetEffect : Prop :=
  ∀ s : State, ∃ t, hostMove .reset s = .next t ∧ t.pc.toNat = (s.cfg.resetVector.toNat + 65535) % 65536 ∧
    (s.cfg.wf = true → classify s.cfg.table t.ir = .instr .jmpAbs) ∧ (s.cfg.table = defaultTable → t.ir = 0x4C) ∧
    t.sp = 0xFF ∧ t.p = 0x00 ∧ t.run = .running ∧ t.ctx = none ∧ t.a = s.a ∧ t.x = s.x ∧ t.y = s.y ∧ t.mem = s.mem ∧
    t.bpm = s.bpm ∧ t.cfg = s.cfg

/-- R42: the machine right after reset. A, X and Y are zero there by the model's choice (log 1). -/
def Obligations.ResetStateValues : Prop :=
  State.reset.pc = 0xFFFB ∧ State.reset.ir = 0x4C ∧ State.reset.sp = 0xFF ∧ State.reset.p = 0x00 ∧
  State.reset.run = .running ∧ State.reset.ctx = none ∧ (∀ k, State.reset.byteAt k = 0x00) ∧ State.reset.bpm.sets = [] ∧
  State.reset.bpm.singleStep = false ∧
  ∀ (sp p ir : Byte) (pc : Word), State.reset = (State.created defaultConfig 0 0 0 sp p ir pc).resetOp

/-- R261, R265, R215: the first step after reset executes the forced jump: PC is the word at the reset vector, IR the byte
there, RUN `Halted` if that is 0x00, SP 0xFF, P 0x00, A, X, Y and memory as they were, two cycle units; and the evaluator was
called for it, observing the forced opcode, the address before the vector, SP 0xFF, no flag, and A, X, Y as they were. -/
def Obligations.ResetStepLoadsVector : Prop :=
  ∀ s : State, s.cfg.wf = true →
    ∃ t u row, step s.resetOp = .next t ∧ t.pc = memWord s s.cfg.resetVector ∧ t.ir = s.byteAt t.pc ∧
      t.run = (if t.ir = 0x00 then .halted else .running) ∧ t.sp = 0xFF ∧ t.p = 0x00 ∧ t.a = s.a ∧ t.x = s.x ∧ t.y = s.y ∧
      t.mem = s.mem ∧ t.trace = some row ∧ row.cycles = 2 ∧
      t.bpm.sets = (evaluate (observe u) 0 s.bpm.sets).1 ∧ observe u .opcode = s.resetOp.ir.toNat ∧
      observe u .pc = (s.cfg.resetVector.toNat + 65535) % 65536 ∧ observe u .sp = 0xFF ∧ observe u .a = s.a.toNat ∧
      observe u .x = s.x.toNat ∧ observe u .y = s.y.toNat ∧ ∀ e ∈ [Elem.c, .z, .i, .d, .v, .n], observe u e = 0

/-- R266, R276: loading and registering only before reset, single step before reset or between steps of a running machine,
reset always; each open move has its effect and no other. Any other move does not exist; that `hostMove` refuses it by name is
the model's choice (log 11). -/
def Obligations.HostMovesWhenOpen : Prop :=
  ∀ s : State,
    (∀ b, hostMove (.register b) s = if s.run = .off then .next { s with bpm := { s.bpm with sets := s.bpm.sets ++ [b] } }
      else .refused .hostMoveNotOpen) ∧
    (∀ v, hostMove (.setSingleStep v) s = if s.run = .off ∨ s.run = .running
      then .next { s with bpm := { s.bpm with singleStep := v } } else .refused .hostMoveNotOpen) ∧
    (∀ addr bs, s.run ≠ .off → hostMove (.loadProgram addr bs) s = .refused .hostMoveNotOpen) ∧
    hostMove .reset s = .next s.resetOp

/-! ## Breakpoints -/

/-- R206: what each element observes; a flag element is 0 or the flag's mask. -/
def Obligations.ObservedValues : Prop :=
  ∀ s : State, observe s .opcode = s.ir.toNat ∧ (∀ c, s.ctx = some c → observe s .pc = c.start.toNat) ∧
    observe s .a = s.a.toNat ∧ observe s .x = s.x.toNat ∧ observe s .y = s.y.toNat ∧ observe s .sp = s.sp.toNat ∧
    observe s .c = (if s.p.getLsbD 0 then 0x01 else 0) ∧ observe s .z = (if s.p.getLsbD 1 then 0x02 else 0) ∧
    observe s .i = (if s.p.getLsbD 2 then 0x04 else 0) ∧ observe s .d = (if s.p.getLsbD 3 then 0x08 else 0) ∧
    observe s .v = (if s.p.getLsbD 6 then 0x40 else 0) ∧ observe s .n = (if s.p.getLsbD 7 then 0x80 else 0)

/-- R208: one is taken from a set's counter exactly when all its conditions match, and it fires exactly when that makes the
counter zero; its conditions and label stay. -/
def Obligations.FireTestRule : Prop :=
  ∀ (obs : Elem → Nat) (b : BreakSet),
    ((b.fireTest obs).2 = true ↔ (∀ c ∈ b.conds, obs c.1 = c.2) ∧ b.counter = 1) ∧
    ((∀ c ∈ b.conds, obs c.1 = c.2) → (b.fireTest obs).1 = { b with counter := b.counter - 1 }) ∧
    ((¬ ∀ c ∈ b.conds, obs c.1 = c.2) → (b.fireTest obs).1 = b)

/-- R207, R209: the first set in registration order that fires is returned; the sets before it were tested and did not fire;
the sets after it are untouched; if none fires, every set was tested. -/
def Obligations.FirstFiringSetWins : Prop :=
  ∀ (obs : Elem → Nat) (sets : List BreakSet),
    match (evaluate obs 0 sets).2 with
    | none => (∀ b ∈ sets, (b.fireTest obs).2 = false) ∧ (evaluate obs 0 sets).1 = sets.map (fun b => (b.fireTest obs).1)
    | some j => ∃ pre b post, sets = pre ++ b :: post ∧ j = pre.length ∧ (∀ c ∈ pre, (c.fireTest obs).2 = false) ∧
        (b.fireTest obs).2 = true ∧
        (evaluate obs 0 sets).1 = pre.map (fun c => (c.fireTest obs).1) ++ (b.fireTest obs).1 :: post

/-- R210, R213 (b): after any stream of instructions on which a set was reached, it fires on the next one exactly when it
matches there and its trigger count is one more than the matches so far: on the N-th match, never before or again, and
never for a count of zero or less. -/
def Obligations.FiresExactlyOnNthMatch : Prop :=
  ∀ (b : BreakSet) (os : List (Elem → Nat)) (o : Elem → Nat),
    ((afterStream b os).fireTest o).2 = true ↔
      b.allMatch o = true ∧ b.counter = ((os.countP (fun q => b.allMatch q) : Nat) : Int) + 1

/-- R214: the check writes nothing but the counters of the sets and the event; and registers, memory, control flow and
halting do not depend on the breakpoint configuration, over any number of steps. -/
def Obligations.BreakpointsAreTransparent : Prop :=
  (∀ s : State, s.check = { s with bpm := { s.bpm with sets := s.check.bpm.sets }, event := s.check.event } ∧
    s.check.bpm.sets.map (fun b => (b.conds, b.label)) = s.bpm.sets.map (fun b => (b.conds, b.label))) ∧
  ∀ (n : Nat) (s : State) (m : Bpm) (e : Event),
    SameForProgram (Host.Core.run Sys2Proof.core n s) (Host.Core.run Sys2Proof.core n { s with bpm := m, event := e })

/-! ## Invariants -/

/-- R34, R42, R68: the invariant holds right after reset. Its clauses on the list of cells (log 20) and on one row per operation
(log 18) are the model's. -/
def Obligations.InvariantAtReset : Prop := State.reset.Inv

/-- R34, R37, R119 (e), R230, R244: every step keeps the invariant of the loop, from every state that meets it. Its clauses on
the list of cells (log 20), on one row per operation (log 18), on the context that a fault leaves (log 16), and the fault as a
state (log 4), are the model's. -/
def Obligations.StepKeepsInvariant : Prop := ∀ s t : State, s.Inv → step s = .next t → t.Inv

/-- Every move of the host keeps the invariant, from every state that meets it (70 R266); its clauses of the model's own are
those of `StepKeepsInvariant`. -/
def Obligations.HostMovesKeepInvariant : Prop :=
  ∀ (m : HostMove) (s t : State), s.Inv → hostMove m s = .next t → t.Inv

/-- R119 (a) and (e): in every state a session reaches the invariant holds, and a running machine that has taken a step since
reset holds in IR the byte at PC; the invariant's clauses of the model's own are those of `StepKeepsInvariant`. -/
def Obligations.ReachableStatesAreGood : Prop :=
  (∀ s, Reachable s → s.Inv) ∧ ∀ s t, Reachable s → step s = .next t → t.run = .running → t.ir = t.byteAt t.pc ∧ t.ir ≠ 0x00

/-- R107, R244: once a run has ended, more steps change nothing and report nothing, for the state it ended in has no step. That
a run has a bound on its steps (log 19) and that a step of an ended machine is a fault (log 5) are the model's choices. -/
def Obligations.EndedRunStays : Prop :=
  ∀ (j k : Nat) (s : State), (runSteps k s).2.ended = true →
    runSteps (k + j) s = runSteps k s ∧ ∃ f, step (runSteps k s).2 = .fault f

/-- R107: a run is the reset followed by steps as long as the machine is running; each step adds exactly its event to those
collected, in order, but a step that faults adds none (R230) and ends the run. The bound on the steps (log 19) and the fault
as a next state (log 4) are the model's choices. -/
def Obligations.RunCollectsEvents : Prop :=
  (∀ (k : Nat) (s : State), runSession k s = runSteps k s.resetOp) ∧ (∀ s : State, runSteps 0 s = ([], s)) ∧
  (∀ (k : Nat) (s : State), s.run ≠ .running → runSteps k s = ([], s)) ∧
  ∀ (k : Nat) (s : State), s.run = .running → ∃ t, step s = .next t ∧
    runSteps (k + 1) s =
      if t.run.isFaulted then ([], t) else (t.event :: (runSteps k t).1, (runSteps k t).2)
end

