-- ==== Sys2Proof/Tests/Slice0.lean ====
section
/-!
SUPPORT. Tests: the well-formedness checks refuse an ill-formed term each; every instruction's hand-written word decodes;
single steps against the vectors of 95_test_vectors; and, for every statement with hypotheses, a state that meets them.
-/

namespace Sys2Proof.Tests

open Sys2Proof Sys2Proof.Machine Sys2Proof.Claims

/-! ## Well-formedness: each check refuses something -/

theorem test_default_config_wf : defaultConfig.wf = true := by decide
theorem test_wf_refuses_instr_without_opcode : Instr.wf [] .nop = false := by decide
theorem test_wf_refuses_duplicate_opcode : opcodesDistinct [⟨0xEA, .nop, 2, 0⟩, ⟨0xEA, .inx, 2, 0⟩] = false := by decide
theorem test_wf_refuses_sentinel_row : sentinelExcluded [⟨0x00, .nop, 2, 0⟩] = false := by decide
theorem test_wf_refuses_other_lda_imm : ldaImmAtA9 [⟨0xA9, .ldxImm, 2, 0⟩] = false := by decide
theorem test_wf_refuses_missing_op : opsCovered [⟨0xEA, .nop, 2, 0⟩] = false := by decide
theorem test_wf_refuses_doubled_op : opsCovered (⟨0x02, .nop, 2, 0⟩ :: defaultTable) = false := by decide
theorem test_memory_wf_refuses_zero_cell : ¬ Memory.wf [(5, 0x00)] := by decide
theorem test_memory_wf_refuses_disorder : ¬ Memory.wf [(5, 0x01), (4, 0x01)] := by decide
theorem test_memory_wf_refuses_high_address : ¬ Memory.wf [(65536, 0x01)] := by decide

/-! ## Decoding: words written out from 30_encoding R83, low byte of the number first in memory -/

theorem test_decode_hlt : decodeTableWord 8 0x00 = some .hlt := by decide
theorem test_decode_clc : decodeTableWord 8 0x18 = some .clc := by decide
theorem test_decode_jsr : decodeTableWord 24 0x060A20 = some (.jsr 0x060A) := by decide
theorem test_decode_sec : decodeTableWord 8 0x38 = some .sec := by decide
theorem test_decode_jmpAbs : decodeTableWord 24 0x12344C = some (.jmpAbs 0x1234) := by decide
theorem test_decode_cli : decodeTableWord 8 0x58 = some .cli := by decide
theorem test_decode_rts : decodeTableWord 8 0x60 = some .rts := by decide
theorem test_decode_jmpInd : decodeTableWord 24 0x00206C = some (.jmpInd 0x0020) := by decide
theorem test_decode_adcAbs : decodeTableWord 24 0x06106D = some (.adcAbs 0x0610) := by decide
theorem test_decode_sei : decodeTableWord 8 0x78 = some .sei := by decide
theorem test_decode_dey : decodeTableWord 8 0x88 = some .dey := by decide
theorem test_decode_txa : decodeTableWord 8 0x8A = some .txa := by decide
theorem test_decode_staAbs : decodeTableWord 24 0x02008D = some (.staAbs 0x0200) := by decide
theorem test_decode_stxAbs : decodeTableWord 24 0xFFFE8E = some (.stxAbs 0xFFFE) := by decide
theorem test_decode_tya : decodeTableWord 8 0x98 = some .tya := by decide
theorem test_decode_ldyImm : decodeTableWord 16 0x03A0 = some (.ldyImm 0x03) := by decide
theorem test_decode_ldaIzx : decodeTableWord 16 0x0CA1 = some (.ldaIzx 0x0C) := by decide
theorem test_decode_ldxImm : decodeTableWord 16 0x04A2 = some (.ldxImm 0x04) := by decide
theorem test_decode_tay : decodeTableWord 8 0xA8 = some .tay := by decide
theorem test_decode_ldaImm : decodeTableWord 16 0x05A9 = some (.ldaImm 0x05) := by decide
theorem test_decode_tax : decodeTableWord 8 0xAA = some .tax := by decide
theorem test_decode_ldyAbs : decodeTableWord 24 0x0200AC = some (.ldyAbs 0x0200) := by decide
theorem test_decode_ldaAbs : decodeTableWord 24 0x0300AD = some (.ldaAbs 0x0300) := by decide
theorem test_decode_ldxAbs : decodeTableWord 24 0x0200AE = some (.ldxAbs 0x0200) := by decide
theorem test_decode_ldaIzy : decodeTableWord 16 0x10B1 = some (.ldaIzy 0x10) := by decide
theorem test_decode_clv : decodeTableWord 8 0xB8 = some .clv := by decide
theorem test_decode_ldaAby : decodeTableWord 24 0x0300B9 = some (.ldaAby 0x0300) := by decide
theorem test_decode_ldyAbx : decodeTableWord 24 0x02FEBC = some (.ldyAbx 0x02FE) := by decide
theorem test_decode_ldaAbx : decodeTableWord 24 0x02FFBD = some (.ldaAbx 0x02FF) := by decide
theorem test_decode_ldxAby : decodeTableWord 24 0x0300BE = some (.ldxAby 0x0300) := by decide
theorem test_decode_iny : decodeTableWord 8 0xC8 = some .iny := by decide
theorem test_decode_dex : decodeTableWord 8 0xCA = some .dex := by decide
theorem test_decode_bne : decodeTableWord 16 0xFCD0 = some (.bne 0xFC) := by decide
theorem test_decode_cld : decodeTableWord 8 0xD8 = some .cld := by decide
theorem test_decode_inx : decodeTableWord 8 0xE8 = some .inx := by decide
theorem test_decode_nop : decodeTableWord 8 0xEA = some .nop := by decide
theorem test_decode_sed : decodeTableWord 8 0xF8 = some .sed := by decide
theorem test_decode_refuses_zero_page_lda : decodeTableWord 16 0x10A5 = none := by decide
theorem test_decode_names_unknown : decode defaultTable [0x40] = .error (.unknownOpcode 0x40) := by rfl
theorem test_decode_names_truncated : decode defaultTable [0xAD, 0x00] = .error .truncated := by rfl
theorem test_operand_above_nbits_is_zero : decodeTableWord 8 0x05A9 = some (.ldaImm 0x00) := by decide

/-! ## Single steps -/

/-- A running machine about to execute the bytes at `pc`. -/
def ready (s : State) (pc : Word) (bytes : List Byte) : State :=
  { s.pokeBytes pc bytes with pc := pc, ir := bytes.headD 0x00, run := .running }

/-- Memory bytes put in place. -/
def put (s : State) (cells : List (Word × Byte)) : State := cells.foldl (fun t c => t.poke c.1 c.2) s

/-- What is read of the next state, if there is one. -/
def after {α : Type} (f : State → α) : Result → Option α
  | .next t => some (f t)
  | _ => none

/-- The cycle count that the step exposed. -/
def cyc (t : State) : Option Nat := t.trace.map TraceRow.cycles

/-- Vector L1. -/
theorem test_ldaImm_zero :
    after (fun t => (t.a, t.p, t.pc)) (step (ready { State.reset with p := 0x01 } 0x0600 [0xA9, 0x00])) = some (0x00, 0x03, 0x0602) := by decide

/-- Vector L4. -/
theorem test_ldaImm_wraps :
    after (fun t => (t.a, t.pc)) (step (ready State.reset 0xFFFF [0xA9, 0x42])) = some (0x42, 0x0001) := by decide

/-- Vector L5. -/
theorem test_ldaAbs :
    after (fun t => (t.a, t.p, t.pc, cyc t)) (step (ready (put State.reset [(0x0300, 0x80)]) 0x0600 [0xAD, 0x00, 0x03])) = some (0x80, 0x80, 0x0603, some 3) := by decide

/-- Vector L6. -/
theorem test_ldaAbs_own_opcode :
    after (fun t => (t.a, t.pc)) (step (ready State.reset 0x0600 [0xAD, 0x00, 0x06])) = some (0xAD, 0x0603) := by decide

/-- Vector L7. -/
theorem test_ldaAbx :
    after (fun t => (t.a, t.p)) (step (ready (put { State.reset with x := 0x04 } [(0x0303, 0x80)]) 0x0600 [0xBD, 0xFF, 0x02])) = some (0x80, 0x80) := by decide

/-- Vector L8. -/
theorem test_ldaAbx_wraps :
    after (fun t => (t.a)) (step (ready (put { State.reset with x := 0x02 } [(0x0001, 0x07)]) 0x0600 [0xBD, 0xFF, 0xFF])) = some (0x07) := by decide

/-- Vector L9. -/
theorem test_ldaAby :
    after (fun t => (t.a, t.p)) (step (ready { State.reset with y := 0xFF, a := 0x55 } 0x0600 [0xB9, 0x00, 0x03])) = some (0x00, 0x02) := by decide

/-- Vector L10. -/
theorem test_ldaIzx :
    after (fun t => (t.a, t.pc, cyc t)) (step (ready (put { State.reset with x := 0x04 } [(0x0010, 0x00), (0x0011, 0x03), (0x0300, 0x11)]) 0x0600 [0xA1, 0x0C])) = some (0x11, 0x0602, some 4) := by decide

/-- Vector L11, both settings of ZP_WRAP. -/
theorem test_ldaIzx_zp_wrap :
    (after State.a (step (ready (put { State.reset with x := 0x20 } [(0x0110, 0x00), (0x0111, 0x04), (0x0400, 0x5A), (0x0010, 0x00), (0x0011, 0x05), (0x0500, 0xA5)]) 0x0600 [0xA1, 0xF0])),
     after State.a (step (ready (put { State.reset with x := 0x20, cfg := { defaultConfig with zpWrap := true } } [(0x0110, 0x00), (0x0111, 0x04), (0x0400, 0x5A), (0x0010, 0x00), (0x0011, 0x05), (0x0500, 0xA5)]) 0x0600 [0xA1, 0xF0])))
      = (some 0x5A, some 0xA5) := by decide

/-- Vector L12. -/
theorem test_ldaIzy :
    after (fun t => (t.a, t.p, t.pc, cyc t)) (step (ready (put { State.reset with y := 0x03 } [(0x0011, 0x03), (0x0303, 0x80)]) 0x0600 [0xB1, 0x10])) = some (0x80, 0x80, 0x0602, some 4) := by decide

/-- Vector L13, both settings of ZP_WRAP. -/
theorem test_ldaIzy_zp_wrap :
    (after State.a (step (ready (put { State.reset with y := 0x01 } [(0x00FF, 0x34), (0x0100, 0x12), (0x0000, 0x56), (0x1235, 0x77), (0x5635, 0x88)]) 0x0600 [0xB1, 0xFF])),
     after State.a (step (ready (put { State.reset with y := 0x01, cfg := { defaultConfig with zpWrap := true } } [(0x00FF, 0x34), (0x0100, 0x12), (0x0000, 0x56), (0x1235, 0x77), (0x5635, 0x88)]) 0x0600 [0xB1, 0xFF])))
      = (some 0x77, some 0x88) := by decide

/-- Vector L15. -/
theorem test_ldxImm :
    after (fun t => (t.x, t.p)) (step (ready { State.reset with p := 0x82 } 0x0600 [0xA2, 0x03])) = some (0x03, 0x00) := by decide

/-- Vector L16. -/
theorem test_ldxAbs :
    after (fun t => (t.x, t.p)) (step (ready (put State.reset [(0x0200, 0xFF)]) 0x0600 [0xAE, 0x00, 0x02])) = some (0xFF, 0x80) := by decide

/-- Vector L17. -/
theorem test_ldxAby :
    after (fun t => (t.x, t.p)) (step (ready (put { State.reset with y := 0x03 } [(0x0303, 0x80)]) 0x0600 [0xBE, 0x00, 0x03])) = some (0x80, 0x80) := by decide

/-- Vector L18. -/
theorem test_ldyImm :
    after (fun t => (t.y, t.p)) (step (ready { State.reset with y := 0x07 } 0x0600 [0xA0, 0x00])) = some (0x00, 0x02) := by decide

/-- Vector L19. -/
theorem test_ldyAbs :
    after (fun t => (t.y, t.p)) (step (ready (put { State.reset with p := 0x82 } [(0x0200, 0x7F)]) 0x0600 [0xAC, 0x00, 0x02])) = some (0x7F, 0x00) := by decide

/-- Vector L20. -/
theorem test_ldyAbx :
    after (fun t => (t.y)) (step (ready (put { State.reset with x := 0x04 } [(0x0302, 0x33)]) 0x0600 [0xBC, 0xFE, 0x02])) = some (0x33) := by decide

/-- Vector T1. -/
theorem test_staAbs :
    after (fun t => (t.byteAt 0x0200, t.p, t.pc, cyc t)) (step (ready { State.reset with a := 0xAB, p := 0x83 } 0x0609 [0x8D, 0x00, 0x02])) = some (0xAB, 0x83, 0x060C, some 3) := by decide

/-- Vector T3: the store is seen by the next fetch. -/
theorem test_stxAbs_halts_next :
    after (fun t => (t.byteAt 0x0603, t.ir, t.run, t.pc)) (step (ready { State.reset with x := 0x00 } 0x0600 [0x8E, 0x03, 0x06, 0xEA])) = some (0x00, 0x00, .halted, 0x0603) := by decide

/-- Vector T4. -/
theorem test_stxAbs_runs_next :
    after (fun t => (t.byteAt 0x0603, t.ir, t.run)) (step (ready { State.reset with x := 0xEA } 0x0600 [0x8E, 0x03, 0x06, 0x00])) = some (0xEA, 0xEA, .running) := by decide

/-- Vector I1. -/
theorem test_inx_wraps :
    after (fun t => (t.x, t.p, cyc t)) (step (ready { State.reset with x := 0xFF } 0x0600 [0xE8])) = some (0x00, 0x02, some 0) := by decide

/-- Vector I2. -/
theorem test_inx_keeps_v_c :
    after (fun t => (t.x, t.p)) (step (ready { State.reset with x := 0x7F, p := 0x41 } 0x0600 [0xE8])) = some (0x80, 0xC1) := by decide

/-- Vector I3. -/
theorem test_iny :
    after (fun t => (t.y, t.p)) (step (ready { State.reset with p := 0x02 } 0x0600 [0xC8])) = some (0x01, 0x00) := by decide

/-- Vector I4. -/
theorem test_dex_wraps :
    after (fun t => (t.x, t.p)) (step (ready State.reset 0x0600 [0xCA])) = some (0xFF, 0x80) := by decide

/-- Vector I5. -/
theorem test_dex_zero :
    after (fun t => (t.x, t.p)) (step (ready { State.reset with x := 0x01, p := 0x01 } 0x0600 [0xCA])) = some (0x00, 0x03) := by decide

/-- Vector I6. -/
theorem test_dey :
    after (fun t => (t.y, t.p)) (step (ready { State.reset with y := 0x80, p := 0x80 } 0x0600 [0x88])) = some (0x7F, 0x00) := by decide

/-- Vector I7. -/
theorem test_tax :
    after (fun t => (t.x, t.a, t.p)) (step (ready { State.reset with a := 0x80, x := 0x01 } 0x0600 [0xAA])) = some (0x80, 0x80, 0x80) := by decide

/-- Vector I8. -/
theorem test_txa :
    after (fun t => (t.a, t.p)) (step (ready { State.reset with a := 0x55 } 0x0600 [0x8A])) = some (0x00, 0x02) := by decide

/-- Vector I9. -/
theorem test_tay :
    after (fun t => (t.y, t.p)) (step (ready { State.reset with y := 0x10, p := 0x80 } 0x0600 [0xA8])) = some (0x00, 0x02) := by decide

/-- Vector I10. -/
theorem test_tya :
    after (fun t => (t.a, t.p)) (step (ready { State.reset with y := 0x03, a := 0xFF, p := 0x80 } 0x0600 [0x98])) = some (0x03, 0x00) := by decide

/-- Vectors of 95 section 2.4. -/
theorem test_sec :
    after (fun t => (t.p, t.pc)) (step (ready { State.reset with p := 0x00 } 0x0600 [0x38])) = some (0x01, 0x0601) := by decide

/-- Vectors of 95 section 2.4. -/
theorem test_sei :
    after (fun t => (t.p, t.pc)) (step (ready { State.reset with p := 0x01 } 0x0600 [0x78])) = some (0x05, 0x0601) := by decide

/-- Vectors of 95 section 2.4. -/
theorem test_sed :
    after (fun t => (t.p, t.pc)) (step (ready { State.reset with p := 0x05 } 0x0600 [0xF8])) = some (0x0D, 0x0601) := by decide

/-- Vectors of 95 section 2.4. -/
theorem test_clc :
    after (fun t => (t.p, t.pc)) (step (ready { State.reset with p := 0x0D } 0x0600 [0x18])) = some (0x0C, 0x0601) := by decide

/-- Vectors of 95 section 2.4. -/
theorem test_cli :
    after (fun t => (t.p, t.pc)) (step (ready { State.reset with p := 0x0C } 0x0600 [0x58])) = some (0x08, 0x0601) := by decide

/-- Vectors of 95 section 2.4. -/
theorem test_cld :
    after (fun t => (t.p, t.pc)) (step (ready { State.reset with p := 0x08 } 0x0600 [0xD8])) = some (0x00, 0x0601) := by decide

/-- Vectors of 95 section 2.4. -/
theorem test_clv :
    after (fun t => (t.p, t.pc)) (step (ready { State.reset with p := 0xC3 } 0x0600 [0xB8])) = some (0x83, 0x0601) := by decide

/-- 43 R167, and 10_state R24 at the top of memory. -/
theorem test_nop :
    after (fun t => (t.p, t.pc)) (step (ready { State.reset with p := 0xFF } 0xFFFF [0xEA])) = some (0xFF, 0x0000) := by decide

/-- Vector B1. -/
theorem test_bne_taken :
    after (fun t => (t.pc, cyc t)) (step (ready State.reset 0x0606 [0xD0, 0xFC])) = some (0x0604, some 2) := by decide

/-- Vector B2. -/
theorem test_bne_not_taken :
    after (fun t => (t.pc, cyc t)) (step (ready { State.reset with p := 0x02 } 0x0606 [0xD0, 0xFC])) = some (0x0608, some 1) := by decide

/-- Vector J2. -/
theorem test_jmpAbs_wraps :
    after (fun t => (t.pc)) (step (ready State.reset 0xFFFE [0x4C, 0x34, 0x12])) = some (0x1234) := by decide

/-- Vector J3. -/
theorem test_jmpInd :
    after (fun t => (t.pc, cyc t)) (step (ready (put State.reset [(0x0020, 0x40), (0x0021, 0x06)]) 0x060B [0x6C, 0x20, 0x00])) = some (0x0640, some 4) := by decide

/-- Vector J4. -/
theorem test_jmpInd_no_page_wrap :
    after (fun t => (t.pc)) (step (ready (put State.reset [(0x02FF, 0x34), (0x0300, 0x12), (0x0200, 0x56)]) 0x0600 [0x6C, 0xFF, 0x02])) = some (0x1234) := by decide

/-- Vector C2. -/
theorem test_jsr_stack_wraps :
    after (fun t => (t.byteAt 0x0100, t.byteAt 0x01FF, t.sp, t.pc)) (step (ready { State.reset with sp := 0x00 } 0x1234 [0x20, 0x00, 0x40])) = some (0x36, 0x12, 0xFE, 0x4000) := by decide

/-- Vector C4. -/
theorem test_jsr_over_its_operand :
    after (fun t => (t.byteAt 0x01FF, t.byteAt 0x01FE, t.sp, t.pc)) (step (ready State.reset 0x01FD [0x20, 0x00, 0x40])) = some (0xFF, 0x01, 0xFD, 0x4000) := by decide

/-- Vector C3. -/
theorem test_rts_after_wrapped_jsr :
    after (fun t => (t.sp, t.pc, cyc t)) (step (ready (put { State.reset with sp := 0xFE } [(0x0100, 0x36), (0x01FF, 0x12)]) 0x4000 [0x60])) = some (0x00, 0x1237, some 2) := by decide

/-- Vector C7. -/
theorem test_rts_to_zero :
    after (fun t => (t.pc, t.sp)) (step (ready (put { State.reset with sp := 0xFD } [(0x01FE, 0xFF), (0x01FF, 0xFF)]) 0x0600 [0x60])) = some (0x0000, 0xFF) := by decide

/-- Vector A1 (D0 example S7). -/
theorem test_adcAbs_wraps :
    after (fun t => (t.a, t.p, t.pc)) (step (ready (put { State.reset with a := 0xFF, p := 0x81 } [(0x0610, 0x01)]) 0x060A [0x6D, 0x10, 0x06])) = some (0x01, 0x01, 0x060D) := by decide

/-- Vector A7: the Decimal flag does nothing. -/
theorem test_adcAbs_binary :
    after (fun t => (t.a, t.p)) (step (ready (put { State.reset with a := 0x09, p := 0x08 } [(0x0610, 0x01)]) 0x060A [0x6D, 0x10, 0x06])) = some (0x0A, 0x08) := by decide

/-- Vector H1: the fetch of 0x00 halts at its address. -/
theorem test_fetch_of_sentinel_halts :
    after (fun t => (t.ir, t.run, t.pc)) (step (ready State.reset 0x060B [0xEA, 0x00])) = some (0x00, .halted, 0x060C) := by
  decide

/-- Vector F1. -/
theorem test_unknown_opcode :
    after (fun t => (t.run, t.pc, t.ir, t.event)) (step (ready State.reset 0x0700 [0x02])) =
      some (.faulted 0x02 0x0700, 0x0700, 0x02, .none) := by decide

/-- Vector F4: reset with nothing loaded. -/
theorem test_reset_with_nothing_loaded :
    after (fun t => (t.pc, t.ir, t.run, t.trace.map TraceRow.start)) (step State.reset) =
      some (0x0000, 0x00, .halted, some 0xFFFB) := by decide

/-- S2: the reset vector is loaded by the first step. -/
theorem test_reset_vector :
    after (fun t => (t.pc, t.ir, cyc t)) (step (put State.reset [(0xFFFC, 0x00), (0xFFFD, 0x06), (0x0600, 0xA9)])) =
      some (0x0600, 0xA9, some 2) := by decide

/-- The table word of LDA #$05 runs as the first instruction after reset. -/
theorem test_withFetchWord :
    after (fun t => (t.a, t.pc)) (step (State.reset.withFetchWord 16 0x05A9)) = some (0x05, 0xFFFD) := by decide

/-- The sentinel's table word ends the run. -/
theorem test_withFetchWord_sentinel : after State.run (step (State.reset.withFetchWord 8 0x00)) = some .halted := by decide

/-! ## Breakpoints -/

/-- A machine at INX with these sets. -/
def watched (sets : List BreakSet) (single : Bool) : State :=
  ready { State.reset with bpm := { sets := sets, singleStep := single } } 0x0600 [0xE8]

/-- The event and the counters after the step. -/
def report (t : State) : Event × List Int := (t.event, t.bpm.sets.map BreakSet.counter)

/-- Vector E1 and E2: an empty set fires on the first instruction; a count of 0 goes to -1 and does not fire. -/
theorem test_empty_and_zero_count :
    (after report (step (watched [newSet] false)), after report (step (watched [newSet 0] false))) =
      (some (.haltRequested (some 0), [0]), some (.none, [-1])) := by decide

/-- Vector E5: the first set that fires ends the evaluation; the second is untouched. -/
theorem test_short_circuit :
    after report (step (watched [(newSet 2).append .opcode 0xE8, (newSet).append .x 0x01, (newSet).append .x 0x01] false)) =
      some (.haltRequested (some 1), [1, 0, 1]) := by decide

/-- S8 and E4: a set flag is matched by its mask; a value out of range never matches. -/
theorem test_flag_values :
    after report (step (watched [(newSet 5).append .z 0x01, (newSet 5).append .z 0x00, (newSet 5).append .a 0x100] false)) =
      some (.none, [5, 4, 5]) := by decide

/-- D8: the PC element is the executed instruction's address. -/
theorem test_pc_element : after report (step (watched [(newSet).append .pc 0x0600] false)) =
    some (.haltRequested (some 0), [0]) := by decide

/-- Vector E6: single step asks for a halt on every step. -/
theorem test_single_step : after report (step (watched [] true)) = some (.haltRequested none, []) := by decide

/-! ## The host -/

/-- A machine just created. -/
def fresh : State := State.created defaultConfig 0x11 0x22 0x33 0x44 0x55 0x66 0x7777

theorem test_load_wraps : after (fun t => (t.byteAt 0xFFFF, t.byteAt 0x0000)) (hostMove (.loadProgram 0xFFFF [0x01, 0x02]) fresh) =
    some (0x01, 0x02) := by decide

theorem test_load_refused_while_running : after State.mem (hostMove (.loadProgram 0x0600 [0x01]) State.reset) = none := by decide

theorem test_reset_keeps_registers : after (fun t => (t.a, t.x, t.y, t.sp, t.p, t.pc, t.ir)) (hostMove .reset fresh) =
    some (0x11, 0x22, 0x33, 0xFF, 0x00, 0xFFFB, 0x4C) := by decide

theorem test_run_ends : (runSession 3 fresh).2.run = .halted ∧ (runSession 3 fresh).1 = [.none] := by decide

/-! ## Witnesses: states that meet the hypotheses of the statements -/

theorem test_witness_DecodeOfEncode : defaultConfig.wf = true := by decide
theorem test_witness_EncodeOfDecode : defaultConfig.wf = true ∧ decode defaultConfig.table [0xA9, 0x05, 0x77] = .ok (.ldaImm 0x05, [0x77]) :=
  ⟨by decide, rfl⟩
theorem test_witness_EveryByteClassified : classify defaultTable 0xA9 ≠ .unknown ∧ classify defaultTable 0x00 ≠ .unknown := by decide
theorem test_witness_LengthByOpcodeAlone : decode defaultTable [0xA9, 0x00] = .ok (.ldaImm 0x00, []) ∧
    decode defaultTable [0xA9, 0xFF, 0x01] = .ok (.ldaImm 0xFF, [0x01]) := ⟨rfl, rfl⟩
theorem test_witness_ByteWriteThenRead : Memory.wf [(0, 0x01), (65535, 0x02)] := by decide
theorem test_witness_LoadProgramReadsBack : fresh.run = .off ∧
    (∀ j : Fin [(0x01 : Byte), 0x02].length, (1 : Fin 2) < j → j.val % 65536 ≠ 1) ∧
    (∀ i : Fin [(0x01 : Byte), 0x02].length, (0x0001 : Word) ≠ BitVec.ofNat 16 (0xFFFF + i.val)) := by decide
theorem test_witness_ZpWrapAgreesInRange : (0xFE : Byte).toNat + State.reset.x.toNat ≤ 0xFE := by decide
theorem test_witness_BneResult : State.reset.p.getLsbD 1 = false ∧ { State.reset with p := 0x02 }.p.getLsbD 1 = true := by decide
theorem test_witness_JsrThenRtsReturns : ∃ t, exec (.jsr 0x0610) { State.reset with sp := 0x00 } = .next t := ⟨_, rfl⟩
theorem test_witness_instruction_completes : ∃ t, exec (.staAbs 0xFFFF) State.reset = .next t := ⟨_, rfl⟩
theorem test_witness_RegisterWriters_without_destination : destReg .nop = none ∧ ∃ t, exec .nop State.reset = .next t := ⟨rfl, _, rfl⟩
theorem test_witness_RegisterWriters_with_destination : destReg .inx = some .x ∧ ∃ t, exec .inx State.reset = .next t := ⟨rfl, _, rfl⟩
theorem test_witness_StackPointerWriters : ∃ t, exec .rts State.reset = .next t ∧ t.sp ≠ State.reset.sp := ⟨_, rfl, by decide⟩
theorem test_witness_FlagWriters_c : ∃ t, exec .sec State.reset = .next t ∧ t.p.getLsbD 0 ≠ State.reset.p.getLsbD 0 := ⟨_, rfl, by decide⟩
theorem test_witness_FlagWriters_i : ∃ t, exec .sei State.reset = .next t ∧ t.p.getLsbD 2 ≠ State.reset.p.getLsbD 2 := ⟨_, rfl, by decide⟩
theorem test_witness_FlagWriters_d : ∃ t, exec .sed State.reset = .next t ∧ t.p.getLsbD 3 ≠ State.reset.p.getLsbD 3 := ⟨_, rfl, by decide⟩
theorem test_witness_FlagWriters_v : ∃ t, exec .clv { State.reset with p := 0x40 } = .next t ∧ t.p.getLsbD 6 ≠ (0x40 : Byte).getLsbD 6 :=
  ⟨_, rfl, by decide⟩
theorem test_witness_PcAdvance_bne : ∃ t, exec (.bne 0x80) { State.reset with p := 0x02 } = .next t ∧ (0x02 : Byte).getLsbD 1 = true :=
  ⟨_, rfl, by decide⟩
theorem test_witness_PcAdvance_hlt : ∃ t, exec .hlt State.reset = .next t := ⟨_, rfl⟩

/-- A running machine with INX ahead: the hypotheses of the statements about a step of an executed instruction. -/
theorem test_witness_executed_step : (watched [] false).run = .running ∧ (watched [] false).instrAhead = .ok .inx ∧ Instr.inx ≠ .hlt :=
  ⟨rfl, rfl, by decide⟩
theorem test_witness_StepRunsDecodedInstruction : (watched [] false).run = .running ∧
    decode (watched [] false).cfg.table
      [(watched [] false).ir, (watched [] false).byteAt ((watched [] false).pc + 1), (watched [] false).byteAt ((watched [] false).pc + 2)] =
      .ok (.inx, [0x00, 0x00]) := ⟨rfl, rfl⟩
theorem test_witness_StepRunsDecodedInstruction_hlt : (ready State.reset 0x0600 [0x00]).run = .running ∧
    (ready State.reset 0x0600 [0x00]).instrAhead = .ok .hlt := ⟨rfl, rfl⟩
theorem test_witness_StepEvaluatesBreakpoints : ∃ u t, exec .inx ((watched [newSet] true).openInstr .inx) = .next u ∧
    step (watched [newSet] true) = .next t := ⟨_, _, rfl, rfl⟩
theorem test_witness_UnknownOpcodeFaults : (ready State.reset 0x0700 [0x02]).run = .running ∧ (ready State.reset 0x0700 [0x02]).ir ≠ 0x00 ∧
    ∀ r ∈ (ready State.reset 0x0700 [0x02]).cfg.table, r.opcode ≠ (ready State.reset 0x0700 [0x02]).ir := by decide
theorem test_witness_StoppedMachineHasNoStep : fresh.run = .off ∧ { fresh with run := .halted }.run = .halted ∧
    { fresh with run := .faulted 0x02 0x0700 }.run = .faulted 0x02 0x0700 := by decide
theorem test_witness_OnlyUnknownOpcodeFaults : State.reset.run = .running := rfl
theorem test_witness_StoreSeenByNextFetch_sta : (ready State.reset 0x0600 [0x8D, 0x03, 0x06]).run = .running ∧
    (ready State.reset 0x0600 [0x8D, 0x03, 0x06]).instrAhead = .ok (.staAbs ((ready State.reset 0x0600 [0x8D, 0x03, 0x06]).pc + 3)) := ⟨rfl, rfl⟩
theorem test_witness_StoreSeenByNextFetch_stx : (ready State.reset 0xFFFE [0x8E, 0x01, 0x00]).run = .running ∧
    (ready State.reset 0xFFFE [0x8E, 0x01, 0x00]).instrAhead = .ok (.stxAbs ((ready State.reset 0xFFFE [0x8E, 0x01, 0x00]).pc + 3)) := ⟨rfl, rfl⟩
theorem test_witness_step_of_reset : ∃ t, step State.reset = .next t := ⟨_, rfl⟩
theorem test_witness_ResetEffect : State.reset.cfg.wf = true ∧ State.reset.cfg.table = defaultTable := by decide
theorem test_witness_ResetStepLoadsVector : State.reset.cfg.wf = true := by decide
theorem test_witness_HostMovesWhenOpen : State.reset.run ≠ .off := by decide
theorem test_witness_ObservedValues : ((watched [] false).openInstr .inx).ctx =
    some ⟨0x0600, some ⟨1, 2, 0⟩, [], 0⟩ := by decide
theorem test_witness_FireTestRule_match : ∀ c ∈ ((newSet).append .x 0x00).conds, observe State.reset c.1 = c.2 := by decide
theorem test_witness_FireTestRule_no_match : ¬ ∀ c ∈ ((newSet).append .x 0x01).conds, observe State.reset c.1 = c.2 := by decide
theorem test_witness_invariant : State.reset.Inv ∧ ∃ t, step State.reset = .next t := ⟨by decide, _, rfl⟩
theorem test_witness_HostMovesKeepInvariant : fresh.Inv ∧ ∃ t, hostMove (.loadProgram 0xFFFC [0x00, 0x06]) fresh = .next t := ⟨by decide, _, rfl⟩

/-- A session: a machine created, the vector and an INX loaded, reset, and the reset step taken; it is running. -/
theorem test_witness_ReachableStatesAreGood : ∃ s t, Reachable s ∧ step s = .next t ∧ t.run = .running := by
  refine ⟨((fresh.pokeBytes 0xFFFC [0x00, 0x06]).pokeBytes 0x0600 [0xE8]).resetOp, _, ?_, rfl, by decide⟩
  exact .move .reset (.move (.loadProgram 0x0600 [0xE8]) (.move (.loadProgram 0xFFFC [0x00, 0x06])
    (.created _ _ _ _ _ _ _ _ (by decide)) rfl) rfl) rfl

theorem test_witness_EndedRunStays : (runSteps 1 State.reset).2.ended = true := by decide
theorem test_witness_RunCollectsEvents : fresh.run ≠ .running ∧ fresh.resetOp.run = .running := by decide

/-- R107, R230: a step that faults reports no event, a step of a single-stepped machine that does not reports one. -/
theorem test_run_collects_events : (runSteps 2 (ready State.reset 0x0700 [0x02])).1 = [] ∧
    (runSteps 1 (watched [] true)).1 = [.haltRequested none] := by decide

end Sys2Proof.Tests
end

section
/-!
PROOFS. The family 00_scope: a step of a running machine always answers a next state, and which of these states are faulted.
-/

namespace Sys2Proof.Machine

open Sys2Proof

/-- The opcode lookup finds nothing exactly when no row of the table has the byte as its opcode (40 R103). -/
theorem findRow_eq_none_iff (t : List Row) (b : Byte) : findRow t b = none ↔ ∀ r ∈ t, r.opcode ≠ b := by
  simp [findRow]

/-- Every instruction completes, from every state (40 R104). -/
theorem exec_completes (i : Instr) (s : State) : ∃ t, exec i s = .next t := by
  cases i
  case bne rel =>
    cases hz : flagOf s.p .z
    · exact ⟨_, exec_bne_taken s rel hz⟩
    · exact ⟨_, exec_bne_passed s rel hz⟩
  all_goals exact ⟨_, rfl⟩

/-- Only the sentinel writes the run state; every other instruction leaves it (44 R175). -/
theorem exec_keeps_run {i : Instr} {s t : State} (h : exec i s = .next t) (hi : i ≠ .hlt) : t.run = s.run := by
  rcases exec_shape h with ⟨n, r, v, rfl⟩ | ⟨k, v, rfl⟩ | ⟨f, b, -, -, rfl⟩ | ⟨n, pc, rfl⟩ | ⟨addr, rfl⟩ | rfl | ⟨rfl, -⟩
  · simp [State.afterSet]
  · simp [State.afterStore]
  · simp [State.afterFlag]
  · simp
  · rw [exec_jsr] at h
    cases h
    simp
  · rw [exec_rts] at h
    cases h
    simp
  · exact absurd rfl hi

/-- A running machine's step is the instruction step (10_state R37). -/
theorem step_of_running {s : State} (h : s.run = .running) : step s = stepRunning s := by
  simp [step, stepMachine, h]

/-- A step of a running machine always answers a next state: the lookup's failure is taken, and every instruction
completes. -/
theorem step_running_completes {s : State} (h : s.run = .running) : ∃ t, step s = .next t := by
  rw [step_of_running h]
  unfold stepRunning
  split
  · exact ⟨_, rfl⟩
  · exact ⟨_, rfl⟩
  · next i _ _ =>
    obtain ⟨u, hu⟩ := exec_completes i (s.openInstr i)
    exact ⟨u.finishStep, by rw [hu, finishResult]⟩

/-- The fetch that ends a step faults no machine (40 R106). -/
theorem State.finishStep_isFaulted (u : State) (h : u.run = .running) : u.finishStep.run.isFaulted = false := by
  rw [u.finishStep_fetch.2, h]
  split <;> rfl

/-- The state a step answers is faulted exactly when there was no instruction ahead (60 R230, R232). -/
theorem step_faulted_iff_no_instrAhead {s t : State} (h : step s = .next t) :
    t.run.isFaulted = true ↔ ∃ e, s.instrAhead = .error e := by
  obtain ⟨hrun, ⟨e, he, rfl⟩ | ⟨he, rfl⟩ | ⟨i, u, hi, he, hu, rfl⟩⟩ := step_next_cases h
  · simp [he, RunState.isFaulted]
  · simp [he, RunState.isFaulted]
  · have hur : u.run = .running := (exec_keeps_run hu hi).trans hrun
    simp [he, u.finishStep_isFaulted hur]

/-- There is no instruction ahead exactly when IR is an unknown opcode (40 R103, 30_encoding R84, R85). -/
theorem State.no_instrAhead_iff (s : State) :
    (∃ e, s.instrAhead = .error e) ↔ s.ir ≠ haltOpcode ∧ ∀ r ∈ s.cfg.table, r.opcode ≠ s.ir := by
  simp [State.instrAhead_error_iff, findRow_eq_none_iff]

end Sys2Proof.Machine

open Sys2Proof Sys2Proof.Machine

/-- Settles O38: a step always answers a next state, since every instruction completes; it is faulted exactly when no
instruction is ahead, which is when IR is an unknown opcode. -/
theorem onlyUnknownOpcodeFaults : Obligations.OnlyUnknownOpcodeFaults := by
  intro s hrun
  obtain ⟨t, ht⟩ := step_running_completes hrun
  exact ⟨t, ht, (step_faulted_iff_no_instrAhead ht).trans s.no_instrAhead_iff⟩

end

section
/-!
PROOFS. The family 10_state: what an instruction may write of the registers and of P, and what every step keeps.
-/

namespace Sys2Proof.Machine

open Sys2Proof Sys2Proof.Claims

/-! ## What each instruction writes of A, X, Y and P -/

/-- The flag an instruction of 43_flag_nop writes, with the value it writes there. -/
def flagWritten : Instr → Option (Flag × Bool)
  | .clc => some (.c, false)
  | .sec => some (.c, true)
  | .cli => some (.i, false)
  | .sei => some (.i, true)
  | .cld => some (.d, false)
  | .sed => some (.d, true)
  | .clv => some (.v, false)
  | _ => none

/-- Each of C, I, D has its clear and its set instruction, V the clear one only, and no other flag has any (43 R160 to
R166). -/
theorem flagWritten_cases {i : Instr} {f : Flag} {b : Bool} (h : flagWritten i = some (f, b)) :
    (f = .c ∧ (i = .clc ∨ i = .sec)) ∨ (f = .i ∧ (i = .cli ∨ i = .sei)) ∨ (f = .d ∧ (i = .cld ∨ i = .sed)) ∨
    (f = .v ∧ i = .clv ∧ b = false) := by
  cases i <;> cases h <;> simp

theorem exec_of_flagWritten {i : Instr} {f : Flag} {b : Bool} (h : flagWritten i = some (f, b)) (s : State) :
    exec i s = .next (s.afterFlag f b) := by
  cases i <;> cases h <;> rfl

theorem exec_of_destReg {i : Instr} {r : Reg} {s t : State} (hd : destReg i = some r) (h : exec i s = .next t) :
    ∃ n v, t = s.afterSet n r v i.length := by
  cases i <;> cases hd
  all_goals
    simp only [exec_ldaImm, exec_ldxImm, exec_ldyImm, exec_ldaAbs, exec_ldxAbs, exec_ldyAbs, exec_ldaAbx, exec_ldyAbx,
      exec_ldaAby, exec_ldxAby, exec_ldaIzx, exec_ldaIzy, exec_adcAbs, exec_inx, exec_iny, exec_dex, exec_dey, exec_tax,
      exec_txa, exec_tay, exec_tya] at h
    cases h
    exact ⟨_, _, rfl⟩

/-- The stores, the control transfers, NOP and the sentinel write no general register and no flag. -/
theorem exec_keeps_regs_and_p {i : Instr} {s t : State} (hd : destReg i = none) (hf : flagWritten i = none)
    (h : exec i s = .next t) : SameRegs s t ∧ t.p = s.p := by
  cases i <;> cases hd <;> cases hf
  case bne rel =>
    cases hz : flagOf s.p .z
    · rw [exec_bne_taken s rel hz] at h
      cases h
      simp [SameRegs]
    · rw [exec_bne_passed s rel hz] at h
      cases h
      simp [SameRegs]
  case hlt => cases h; exact ⟨fun q => by cases q <;> rfl, rfl⟩
  all_goals
    simp only [exec_jsr, exec_jmpAbs, exec_rts, exec_jmpInd, exec_staAbs, exec_stxAbs, exec_nop] at h
    cases h
    simp [SameRegs, State.afterStore]

/-! ## The flags after an instruction -/

/-- `SetZN` in the words of the statements (40 R109). -/
theorem znOf_flagsZN (v p : Byte) : ZNOf v p (flagsZN p v) := by
  refine ⟨?_, ?_, fun k hk h1 h7 => ?_⟩
  · rw [getLsbD_flagsZN _ _ _ (by decide)]
    simp
  · rw [getLsbD_flagsZN _ _ _ (by decide), if_pos rfl, ← BitVec.msb_eq_getLsbD_last v, BitVec.msb_eq_decide]
    simp
  · rw [getLsbD_flagsZN _ _ _ hk, if_neg h7, if_neg h1]

@[simp] theorem State.afterSet_reg_self (s : State) (n : Nat) (r : Reg) (v : Byte) (len : Nat) :
    (s.afterSet n r v len).reg r = v := by
  simp [State.afterSet]

theorem State.afterSet_reg_ne (s : State) (n : Nat) {r q : Reg} (v : Byte) (len : Nat) (h : q ≠ r) :
    (s.afterSet n r v len).reg q = s.reg q := by
  simp [State.afterSet, State.setReg_reg_ne _ v h]

@[simp] theorem State.afterSet_p (s : State) (n : Nat) (r : Reg) (v : Byte) (len : Nat) :
    (s.afterSet n r v len).p = flagsZN s.p v := rfl

@[simp] theorem State.afterFlag_p (s : State) (f : Flag) (b : Bool) : (s.afterFlag f b).p = putFlag s.p f b := rfl

theorem State.afterFlag_sameRegs (s : State) (f : Flag) (b : Bool) : SameRegs s (s.afterFlag f b) := by
  intro q
  simp [State.afterFlag]

/-- Besides Z and N, an instruction changes at most the bit of the flag that it writes. -/
theorem exec_changes_bit {i : Instr} {s t : State} (h : exec i s = .next t) {k : Nat} (hk : k < 8) (h1 : k ≠ 1)
    (h7 : k ≠ 7) (hne : t.p.getLsbD k ≠ s.p.getLsbD k) :
    ∃ f b, flagWritten i = some (f, b) ∧ k = f.bit ∧ t.p.getLsbD k = b := by
  cases hf : flagWritten i with
  | some w =>
    obtain ⟨f, b⟩ := w
    rw [exec_of_flagWritten hf] at h
    cases h
    rw [State.afterFlag_p, getLsbD_putFlag _ _ _ _ hk] at hne ⊢
    by_cases hb : k = f.bit
    · exact ⟨f, b, rfl, hb, if_pos hb⟩
    · exact absurd (if_neg hb) hne
  | none =>
    cases hd : destReg i with
    | some r =>
      obtain ⟨n, v, rfl⟩ := exec_of_destReg hd h
      exact absurd ((znOf_flagsZN v s.p).2.2 k hk h1 h7) hne
    | none => exact absurd (by rw [(exec_keeps_regs_and_p hd hf h).2]) hne

/-- Which instruction a changed bit of P other than Z and N is due to (10_state R27 to R33). -/
theorem exec_changes_bit_cases {i : Instr} {s t : State} (h : exec i s = .next t) {k : Nat} (hk : k < 8) (h1 : k ≠ 1)
    (h7 : k ≠ 7) (hne : t.p.getLsbD k ≠ s.p.getLsbD k) :
    (k = 0 ∧ (i = .clc ∨ i = .sec)) ∨ (k = 2 ∧ (i = .cli ∨ i = .sei)) ∨ (k = 3 ∧ (i = .cld ∨ i = .sed)) ∨
    (k = 6 ∧ i = .clv ∧ t.p.getLsbD k = false) := by
  obtain ⟨f, b, hf, rfl, hb⟩ := exec_changes_bit h hk h1 h7 hne
  obtain ⟨rfl, hi⟩ | ⟨rfl, hi⟩ | ⟨rfl, hi⟩ | ⟨rfl, hi, rfl⟩ := flagWritten_cases hf
  · exact .inl ⟨rfl, hi⟩
  · exact .inr (.inl ⟨rfl, hi⟩)
  · exact .inr (.inr (.inl ⟨rfl, hi⟩))
  · exact .inr (.inr (.inr ⟨rfl, hi, hb⟩))

/-- No instruction sets bit 4, 5 or 6 of P (40 R119 (e)). -/
theorem exec_keeps_high_bits_clear {i : Instr} {s t : State} (h : exec i s = .next t) (hp : s.p &&& 0x70 = 0) :
    t.p &&& 0x70 = 0 := by
  apply BitVec.eq_of_getLsbD_eq
  intro k hk
  have hs : (s.p &&& 0x70).getLsbD k = false := by rw [hp]; exact BitVec.getLsbD_zero
  by_contra hset
  have ht : t.p.getLsbD k = true ∧ (0x70 : Byte).getLsbD k = true := by simpa using hset
  have inMask {j : Nat} (hj : (0x70 : Byte).getLsbD j = false) : k ≠ j := by
    rintro rfl
    exact Bool.false_ne_true (hj.symm.trans ht.2)
  have hne : t.p.getLsbD k ≠ s.p.getLsbD k := by
    intro he
    rw [BitVec.getLsbD_and, ← he, ht.1, ht.2] at hs
    cases hs
  rcases exec_changes_bit_cases h hk (inMask rfl) (inMask rfl) hne with ⟨h0, -⟩ | ⟨h2, -⟩ | ⟨h3, -⟩ | ⟨-, -, hclear⟩
  · exact inMask rfl h0
  · exact inMask rfl h2
  · exact inMask rfl h3
  · exact absurd ht.1 (by simp [hclear])

/-! ## Memory -/

/-- Every instruction keeps the canonical form of memory: it stores nothing, or stores by `poke`. -/
theorem exec_keeps_mem_wf {i : Instr} {s t : State} (h : exec i s = .next t) (hm : Memory.wf s.mem) :
    Memory.wf t.mem := by
  rcases exec_shape h with ⟨n, r, v, rfl⟩ | ⟨k, v, rfl⟩ | ⟨f, b, -, -, rfl⟩ | ⟨n, pc, rfl⟩ | ⟨addr, rfl⟩ | rfl | ⟨-, rfl⟩
  · simpa [State.afterSet] using hm
  · exact State.wf_poke _ k v hm
  · exact hm
  · exact hm
  · rw [exec_jsr] at h
    cases h
    exact State.wf_poke _ _ _ (State.wf_poke _ _ _ hm)
  · rw [exec_rts] at h
    cases h
    exact hm
  · exact hm

/-! ## The state right after reset -/

/-- The reset operation takes a created machine with A, X and Y zero to `State.reset`, whatever SP, P, IR and PC held
(70 R260, R262, R268). -/
theorem State.reset_eq_resetOp_created (sp p ir : Byte) (pc : Word) :
    State.reset = (State.created defaultConfig 0 0 0 sp p ir pc).resetOp := by
  have hpc : defaultConfig.resetVector - 1#16 = 0xFFFB#16 := by decide
  have hir : Config.jmpOpcode defaultConfig = 0x4C := by decide
  simp [State.reset, State.created, State.resetOp, hpc, hir]

/-! ## The step -/

/-- A state whose run state is not `Faulted` has no fault to record. -/
theorem State.faultRecorded_of_not_isFaulted {s : State} (h : s.run.isFaulted = false) : s.faultRecorded = true := by
  unfold State.faultRecorded
  cases hr : s.run <;> simp_all [RunState.isFaulted]

/-- Taking the fault establishes the invariant: it records the opcode and address it found (60 R230). -/
theorem State.inv_takeUnknownOpcode {s : State} {e : DecodeError} (hs : s.Inv) (hrun : s.run = .running)
    (he : s.instrAhead = .error e) : s.openStep.takeUnknownOpcode.Inv := by
  obtain ⟨hmem, hcfg, -, -, hp, -, -⟩ := hs
  obtain ⟨hir, hrow, -⟩ := (s.instrAhead_error_iff e).mp he
  refine ⟨hmem, hcfg, nofun, nofun, fun _ => hp (by simp [hrun]), nofun, ?_⟩
  simp [State.faultRecorded, hir, hrow]

/-- The end of a step establishes the clauses of the invariant about IR, RUN and the context; memory, the table and P it
leaves as the instruction did (40 R101, R106). -/
theorem State.inv_finishStep {u : State} (hmem : Memory.wf u.mem) (hcfg : u.cfg.wf = true) (hp : u.p &&& 0x70 = 0)
    (hrun : u.run = .running) : u.finishStep.Inv := by
  obtain ⟨-, -, -, -, keepP, keepPc, keepMem, keepCfg, noCtx⟩ := u.finishStep_keeps
  obtain ⟨fetchIr, fetchRun⟩ := u.finishStep_fetch
  have hbyte : u.finishStep.byteAt u.finishStep.pc = u.finishStep.ir := by
    rw [fetchIr, keepPc, State.byteAt, keepMem, State.byteAt]
  rw [hrun, ← fetchIr] at fetchRun
  refine ⟨by rwa [keepMem], by rwa [keepCfg], fun hr => ?_, fun hr => ?_, fun _ => by rwa [keepP], fun _ => noCtx,
    State.faultRecorded_of_not_isFaulted (u.finishStep_isFaulted hrun)⟩
  · intro hz
    simp [fetchRun, hz] at hr
  · have hz : u.finishStep.ir = haltOpcode := by
      by_contra hz
      simp [fetchRun, hz] at hr
    exact ⟨hz, hbyte.trans hz⟩

end Sys2Proof.Machine

open Sys2Proof Sys2Proof.Machine Sys2Proof.Claims

/-- Settles O56, by the three ways a step answers a next state: taking the fault records it, the sentinel is never in IR of
a running machine, and an instruction keeps memory, table and bits 4 to 6 of P while the end of its step does the rest. -/
theorem stepKeepsInvariant : Obligations.StepKeepsInvariant := by
  intro s t hs h
  obtain ⟨hmem, hcfg, hir, -, hp, -, -⟩ := id hs
  obtain ⟨hrun, ⟨e, he, rfl⟩ | ⟨he, -⟩ | ⟨i, u, hi, -, hu, rfl⟩⟩ := step_next_cases h
  · exact State.inv_takeUnknownOpcode hs hrun he
  · exact absurd (s.instrAhead_hlt_iff.mp he) (hir hrun)
  · obtain ⟨-, -, keepCfg, -, -⟩ := exec_keeps hu
    exact State.inv_finishStep (exec_keeps_mem_wf hu hmem) (by rwa [keepCfg])
      (exec_keeps_high_bits_clear hu (hp (by simp [hrun]))) ((exec_keeps_run hu hi).trans hrun)

/-- Settles O31, by whether the instruction has a destination register, and if not, whether it writes a flag. -/
theorem registerWriters : Obligations.RegisterWriters := by
  intro i s t h
  cases hd : destReg i with
  | some r =>
    obtain ⟨n, v, rfl⟩ := exec_of_destReg hd h
    refine ⟨fun q hq => s.afterSet_reg_ne n v _ hq, ?_⟩
    rw [State.afterSet_reg_self]
    exact znOf_flagsZN v s.p
  | none =>
    cases hf : flagWritten i with
    | none =>
      obtain ⟨hregs, hp⟩ := exec_keeps_regs_and_p hd hf h
      exact ⟨hregs, by rw [hp], by rw [hp]⟩
    | some w =>
      obtain ⟨f, b⟩ := w
      rw [exec_of_flagWritten hf] at h
      cases h
      have hbit : 1 ≠ f.bit ∧ 7 ≠ f.bit := by
        obtain ⟨rfl, -⟩ | ⟨rfl, -⟩ | ⟨rfl, -⟩ | ⟨rfl, -⟩ := flagWritten_cases hf <;> decide
      exact ⟨s.afterFlag_sameRegs f b, (getLsbD_putFlag _ _ _ _ (by decide)).trans (if_neg hbit.1),
        (getLsbD_putFlag _ _ _ _ (by decide)).trans (if_neg hbit.2)⟩

/-- Settles O32: of the shapes of an instruction's effect only those of JSR and RTS write SP. -/
theorem stackPointerWriters : Obligations.StackPointerWriters := by
  intro i s t h hsp
  rcases exec_shape h with ⟨n, r, v, rfl⟩ | ⟨k, v, rfl⟩ | ⟨f, b, -, -, rfl⟩ | ⟨n, pc, rfl⟩ | hjsr | hrts | ⟨-, rfl⟩
  · exact absurd (by simp [State.afterSet]) hsp
  · exact absurd rfl hsp
  · exact absurd rfl hsp
  · exact absurd rfl hsp
  · exact .inl hjsr
  · exact .inr hrts
  · exact absurd rfl hsp

/-- Settles O33: a changed bit of P other than Z and N names the instruction, and bits 4 and 5 name none. -/
theorem flagWriters : Obligations.FlagWriters := by
  intro i s t h
  have changed {k : Nat} := exec_changes_bit_cases h (k := k)
  refine ⟨fun hne => ?_, fun hne => ?_, fun hne => ?_, fun hne => ?_, ?_, ?_⟩
  · simpa using changed (by decide) (by decide) (by decide) hne
  · simpa using changed (by decide) (by decide) (by decide) hne
  · simpa using changed (by decide) (by decide) (by decide) hne
  · simpa using changed (by decide) (by decide) (by decide) hne
  · by_contra hne
    simpa using changed (by decide) (by decide) (by decide) hne
  · by_contra hne
    simpa using changed (by decide) (by decide) (by decide) hne

/-- Settles O44, by the three ways a step answers a next state; no instruction writes the parameters. -/
theorem stepKeepsParameters : Obligations.StepKeepsParameters := by
  intro s t h
  obtain ⟨-, ⟨e, -, rfl⟩ | ⟨-, rfl⟩ | ⟨i, u, -, -, hu, rfl⟩⟩ := step_next_cases h
  · rfl
  · rfl
  · obtain ⟨-, -, -, -, -, -, -, finishCfg, -⟩ := u.finishStep_keeps
    obtain ⟨-, -, execCfg, -, -⟩ := exec_keeps hu
    exact finishCfg.trans execCfg

/-- Settles O37, by the run state. -/
theorem stoppedMachineHasNoStep : Obligations.StoppedMachineHasNoStep := by
  intro s
  refine ⟨fun h => ?_, fun h => ?_, fun op pc h => ?_⟩
  · simp [step, stepMachine, h]
  · simp [step, stepMachine, h]
  · simp [step, stepMachine, h]

/-- Settles O45: each of the 36 opcodes is looked up in the default table. -/
theorem descriptorTable : Obligations.DescriptorTable := by
  unfold Obligations.DescriptorTable describes
  decide

/-- Settles O47: memory with no cell reads 0x00 everywhere, and the reset operation overwrites what SP, P, IR and PC held. -/
theorem resetStateValues : Obligations.ResetStateValues :=
  ⟨rfl, rfl, rfl, rfl, rfl, rfl, fun _ => rfl, rfl, rfl, State.reset_eq_resetOp_created⟩

/-- Settles O55, clause by clause: memory is empty, the default table meets D1, and IR holds the forced jump. -/
theorem invariantAtReset : Obligations.InvariantAtReset :=
  ⟨State.reset_mem_wf, by decide, fun _ => by decide, nofun, fun _ => rfl, fun _ => rfl, rfl⟩

end

section
/-!
PROOFS. The family 20_memory: the bus primitives, the load port and the stack as reads after writes, and the store that the
fetch of its own step sees.
-/

namespace Sys2Proof.Machine

open Sys2Proof Sys2Proof.Claims

/-! ## Addresses as numbers -/

/-- An address a number of bytes further on, modulo 65536 (00_scope R6). -/
theorem addr_ofNat_toNat_add (k : Word) (n : Nat) : BitVec.ofNat 16 (k.toNat + n) = k + BitVec.ofNat 16 n := by
  rw [BitVec.ofNat_add, BitVec.ofNat_toNat, BitVec.setWidth_eq]

/-- Two offsets from one address name different bytes when they differ modulo 65536. -/
theorem addr_add_ofNat_ne (k : Word) {m n : Nat} (h : m % 65536 ≠ n % 65536) :
    k + BitVec.ofNat 16 m ≠ k + BitVec.ofNat 16 n := by
  intro he
  exact h (congrArg BitVec.toNat (BitVec.add_right_inj k |>.mp he))

theorem addr_add_ofNat_succ (k : Word) (n : Nat) : k + BitVec.ofNat 16 (n + 1) = k + 1 + BitVec.ofNat 16 n := by
  rw [Nat.add_comm, BitVec.ofNat_add, ← BitVec.add_assoc]
  rfl

theorem stackAddr_eq_ofNat (p : Byte) : stackAddr p = BitVec.ofNat 16 (256 + p.toNat) := by
  rw [← stackAddr_toNat, BitVec.ofNat_toNat, BitVec.setWidth_eq]

/-! ## The bytes a write leaves alone -/

theorem State.sameMemBut_poke (s : State) (k : Word) (v : Byte) : SameMemBut [k] s (s.poke k v) :=
  fun _ hj => s.byteAt_poke_ne v (by simpa using hj)

/-! ## Bytes at consecutive addresses -/

/-- Storing a byte sequence writes memory only (20_memory R58). -/
theorem State.pokeBytes_writes_mem (s : State) (addr : Word) (bs : List Byte) :
    s.pokeBytes addr bs = { s with mem := (s.pokeBytes addr bs).mem } := by
  induction bs generalizing s addr with
  | nil => rfl
  | cons b bs ih => exact ih (s.poke addr b) (addr + 1)

/-- An address that no byte of the sequence lies at reads as before. -/
theorem State.byteAt_pokeBytes_of_not_covered (s : State) (addr : Word) (bs : List Byte) (k : Word)
    (h : ∀ i < bs.length, k ≠ addr + BitVec.ofNat 16 i) : (s.pokeBytes addr bs).byteAt k = s.byteAt k := by
  induction bs generalizing s addr with
  | nil => rfl
  | cons b bs ih =>
    have hfirst : k ≠ addr := by simpa using h 0 (by simp)
    have hrest : ∀ i < bs.length, k ≠ addr + 1 + BitVec.ofNat 16 i := fun i hi => by
      rw [← addr_add_ofNat_succ]
      exact h (i + 1) (by simpa using hi)
    calc ((s.poke addr b).pokeBytes (addr + 1) bs).byteAt k
      _ = (s.poke addr b).byteAt k := ih _ _ hrest
      _ = s.byteAt k := s.byteAt_poke_ne b hfirst

/-- Byte `i` of the sequence is read back, unless a later byte of it lies at the same address. -/
theorem State.byteAt_pokeBytes_of_last (s : State) (addr : Word) (bs : List Byte) (i : Nat) (hi : i < bs.length)
    (hlast : ∀ j < bs.length, i < j → j % 65536 ≠ i % 65536) :
    (s.pokeBytes addr bs).byteAt (addr + BitVec.ofNat 16 i) = bs[i] := by
  induction bs generalizing s addr i with
  | nil => exact absurd hi (by simp)
  | cons b bs ih =>
    cases i with
    | zero =>
      have huncovered : ∀ j < bs.length, addr + BitVec.ofNat 16 0 ≠ addr + 1 + BitVec.ofNat 16 j := fun j hj => by
        rw [← addr_add_ofNat_succ]
        exact addr_add_ofNat_ne addr (hlast (j + 1) (by simpa using hj) j.succ_pos).symm
      calc ((s.poke addr b).pokeBytes (addr + 1) bs).byteAt (addr + BitVec.ofNat 16 0)
        _ = (s.poke addr b).byteAt (addr + BitVec.ofNat 16 0) :=
          State.byteAt_pokeBytes_of_not_covered _ _ _ _ huncovered
        _ = b := by simp
    | succ i =>
      rw [addr_add_ofNat_succ]
      refine ih _ _ i (by simpa using hi) fun j hj hij => ?_
      have := hlast (j + 1) (by simpa using hj) (by omega)
      omega

/-! ## A store and the fetch that ends its step -/

/-- A running machine with an instruction ahead executes it in the context opened for it and finishes the step (40 R101). -/
theorem step_of_instrAhead {s u : State} {i : Instr} (hrun : s.run = .running) (hahead : s.instrAhead = .ok i)
    (hi : i ≠ .hlt) (hu : exec i (s.openInstr i) = .next u) : step s = .next u.finishStep := by
  obtain ⟨t, ht⟩ := step_running_completes hrun
  obtain ⟨-, ⟨e, he, -⟩ | ⟨he, -⟩ | ⟨j, w, -, hj, hw, rfl⟩⟩ := step_next_cases ht
  · cases hahead.symm.trans he
  · exact absurd (Except.ok.inj (hahead.symm.trans he)) hi
  · cases hahead.symm.trans hj
    cases hu.symm.trans hw
    exact ht

/-- The instruction's context is anchored at PC (40 R102). -/
@[simp] theorem State.start_openInstr (s : State) (i : Instr) : (s.openInstr i).start = s.pc := rfl

@[simp] theorem State.afterStore_pc (s : State) (k : Word) (v : Byte) : (s.afterStore k v).pc = s.start + 3 := rfl

@[simp] theorem State.afterStore_run (s : State) (k : Word) (v : Byte) : (s.afterStore k v).run = s.run := rfl

@[simp] theorem State.byteAt_afterStore_self (s : State) (k : Word) (v : Byte) : (s.afterStore k v).byteAt k = v := by
  simp [State.afterStore]

/-- The fetch that ends the step of a store to the next opcode address loads the byte just stored (20_memory R69). -/
theorem step_of_store_at_next {s : State} {i : Instr} {v : Byte} (hrun : s.run = .running)
    (hahead : s.instrAhead = .ok i) (hi : i ≠ .hlt)
    (hexec : exec i (s.openInstr i) = .next ((s.openInstr i).afterStore (s.pc + 3) v)) :
    ∃ t, step s = .next t ∧ t.pc = s.pc + 3 ∧ t.ir = v ∧ t.run = if v = 0 then .halted else .running := by
  obtain ⟨-, -, -, -, -, keepPc, -⟩ := ((s.openInstr i).afterStore (s.pc + 3) v).finishStep_keeps
  obtain ⟨fetchIr, fetchRun⟩ := ((s.openInstr i).afterStore (s.pc + 3) v).finishStep_fetch
  rw [State.afterStore_pc, State.start_openInstr] at keepPc fetchIr fetchRun
  rw [State.byteAt_afterStore_self] at fetchIr fetchRun
  rw [State.afterStore_run, State.openInstr_run, hrun] at fetchRun
  exact ⟨_, step_of_instrAhead hrun hahead hi hexec, keepPc, fetchIr, fetchRun⟩

end Sys2Proof.Machine

open Sys2Proof Sys2Proof.Machine Sys2Proof.Claims

/-- Settles O7: a write is a poke and a charge, a read is a charge, and the laws of `poke` give each clause. -/
theorem byteWriteThenRead : Obligations.ByteWriteThenRead := by
  intro s k v
  exact ⟨s.byteAt_poke_self k v, s.sameMemBut_poke k v, rfl, rfl, rfl, rfl, rfl, s.wf_poke k v⟩

/-- Settles O8: the move is open while RUN is `Off`, and its effect is the byte sequence stored from `addr` on. -/
theorem loadProgramReadsBack : Obligations.LoadProgramReadsBack := by
  intro s addr bytes hoff
  have hopen : hostMove (.loadProgram addr bytes) s = .next (s.pokeBytes addr bytes) := by
    simp [hostMove, HostMove.isOpen, HostMove.apply, hoff]
  refine ⟨_, hopen, s.pokeBytes_writes_mem addr bytes, fun i hlast => ?_, fun k hk => ?_⟩
  · rw [addr_ofNat_toNat_add]
    exact s.byteAt_pokeBytes_of_last addr bytes i i.isLt fun j hj hij => hlast ⟨j, hj⟩ hij
  · refine s.byteAt_pokeBytes_of_not_covered addr bytes k fun i hi => ?_
    rw [← addr_ofNat_toNat_add]
    exact hk ⟨i, hi⟩

/-- Settles O9: a push pokes at the stack address of SP, a pop reads at that of SP + 1, and SP - 1 + 1 is SP modulo 256. -/
theorem pushAndPop : Obligations.PushAndPop := by
  intro s v
  have hpush : stackAddr s.sp = BitVec.ofNat 16 (256 + s.sp.toNat) := stackAddr_eq_ofNat s.sp
  have hinc : (s.sp + 1).toNat = (s.sp.toNat + 1) % 256 := BitVec.toNat_add s.sp 1
  have hdec : (s.sp - 1).toNat = (s.sp.toNat + 255) % 256 := by
    rw [BitVec.toNat_sub, Nat.add_comm]
    rfl
  have hpop : stackAddr (s.sp + 1) = BitVec.ofNat 16 (256 + (s.sp.toNat + 1) % 256) := by
    rw [stackAddr_eq_ofNat, hinc]
  have hback : s.sp - 1 + 1 = s.sp := BitVec.sub_add_cancel s.sp 1
  rw [← hpush, ← hpop]
  refine ⟨s.byteAt_poke_self _ v, s.sameMemBut_poke _ v, hdec, rfl, rfl, rfl, hinc, rfl, rfl, ?_, hback⟩
  calc (s.push v).pop.1
    _ = (s.poke (stackAddr s.sp) v).byteAt (stackAddr (s.sp - 1 + 1)) := rfl
    _ = v := by rw [hback, State.byteAt_poke_self]

/-- Settles O43: STA and STX are the two stores, of A and of X, and the fetch of their step sees the byte they stored. -/
theorem storeSeenByNextFetch : Obligations.StoreSeenByNextFetch := by
  intro s hrun
  exact ⟨fun h => step_of_store_at_next hrun h nofun (exec_staAbs _ _),
    fun h => step_of_store_at_next hrun h nofun (exec_stxAbs _ _)⟩

/-- Settles O6: a word read joins the two bytes, and `addr + 1` is the next address modulo 65536. -/
theorem wordReadIsLittleEndian : Obligations.WordReadIsLittleEndian := by
  intro s k
  rw [State.memRead2_eq, addr_ofNat_toNat_add]
  refine ⟨?_, rfl, rfl⟩
  rw [State.wordAt, toNat_wordOf, Nat.add_comm]
  rfl

end

section
/-!
PROOFS. The family 30_encoding: decoding inverted once for every table, and the table as a one-to-one map between opcode bytes
and operations under D1.
-/

namespace Sys2Proof

open Sys2Proof.Machine

/-! ## Operand bytes -/

/-- A format with neither no operand byte nor one has two (R81). -/
theorem Format.operandBytes_eq_two {f : Format} (h0 : f.operandBytes ≠ 0) (h1 : f.operandBytes ≠ 1) :
    f.operandBytes = 2 := by
  revert h0 h1
  cases f <;> decide

/-- The operand bytes of a built instruction are as many of the two bytes as its format has (R81, R82). -/
theorem Op.operandBytes_build (op : Op) (b1 b2 : Byte) :
    (op.build b1 b2).operandBytes = [b1, b2].take op.format.operandBytes := by
  cases op <;> simp [Op.build, Instr.operandBytes, Op.format, Format.operandBytes]

/-- An instruction of an operation has the length of its format: the opcode byte and its operand bytes (R81). -/
theorem Instr.length_eq_operandBytes (i : Instr) : i.length = i.operandBytes.length + 1 := by
  cases i <;> rfl

/-- Decoding the operands splits off exactly the operand bytes of the instruction (R80, R82). -/
theorem decodeOperands_eq_ok_iff {op : Op} {bs rest : List Byte} {i : Instr} :
    decodeOperands op bs = .ok (i, rest) ↔ i.op = some op ∧ bs = i.operandBytes ++ rest := by
  constructor
  · intro h
    refine ⟨decodeOperands_op h, ?_⟩
    unfold decodeOperands at h
    split at h
    · next hn => cases h; simp [Op.operandBytes_build, hn]
    · next hn => cases h; simp [Op.operandBytes_build, hn]
    · next hn0 hn1 =>
      cases h
      have hn : op.format.operandBytes = 2 := Format.operandBytes_eq_two hn0 hn1
      simp [Op.operandBytes_build, hn]
    · cases h
  · rintro ⟨hop, rfl⟩
    cases i <;> cases hop <;>
      simp [decodeOperands, Op.format, Format.operandBytes, Instr.operandBytes, Op.build]

/-! ## What the opcode byte says -/

/-- What the opcode byte of an instruction must be classified as. -/
def Instr.opcodeClass (i : Instr) : OpcodeClass :=
  match i.op with
  | none => .halt
  | some op => .instr op

/-- Every instruction but the sentinel has an operation (R84). -/
theorem Instr.op_eq_none_iff {i : Instr} : i.op = none ↔ i = .hlt := by
  cases i <;> simp [Instr.op]

@[simp] theorem Instr.opcodeClass_eq_halt_iff {i : Instr} : i.opcodeClass = .halt ↔ i = .hlt := by
  rw [← Instr.op_eq_none_iff]
  cases h : i.op <;> simp [Instr.opcodeClass, h]

@[simp] theorem Instr.opcodeClass_eq_instr_iff {i : Instr} {op : Op} : i.opcodeClass = .instr op ↔ i.op = some op := by
  cases h : i.op <;> simp [Instr.opcodeClass, h]

theorem Instr.opcodeClass_ne_unknown (i : Instr) : i.opcodeClass ≠ .unknown := by
  cases h : i.op <;> simp [Instr.opcodeClass, h]

/-- The class of the opcode byte fixes the operation. -/
theorem Instr.op_eq_of_opcodeClass_eq {i j : Instr} (h : i.opcodeClass = j.opcodeClass) : i.op = j.op := by
  cases hi : i.op <;> cases hj : j.op <;> simp_all [Instr.opcodeClass]

/-- Decoding inverted, under every table: an opcode byte of the instruction's class, then its operand bytes (R80, R87). -/
theorem decode_eq_ok_iff {t : List Row} {bs rest : List Byte} {i : Instr} :
    decode t bs = .ok (i, rest) ↔ ∃ b, classify t b = i.opcodeClass ∧ bs = b :: (i.operandBytes ++ rest) := by
  cases bs with
  | nil => simp [decode]
  | cons b bs =>
    have hsplit : (∃ b', classify t b' = i.opcodeClass ∧ b :: bs = b' :: (i.operandBytes ++ rest)) ↔
        i.opcodeClass = classify t b ∧ bs = i.operandBytes ++ rest := by
      simp [eq_comm]
    rw [hsplit]
    cases hc : classify t b with
    | halt =>
      simp only [decode, hc, Instr.opcodeClass_eq_halt_iff]
      constructor
      · intro h
        cases h
        exact ⟨rfl, rfl⟩
      · rintro ⟨rfl, rfl⟩
        rfl
    | instr op => simp only [decode, hc, decodeOperands_eq_ok_iff, Instr.opcodeClass_eq_instr_iff]
    | unknown => simp [decode, hc, i.opcodeClass_ne_unknown]

theorem classify_eq_halt_iff {t : List Row} {b : Byte} : classify t b = .halt ↔ b = haltOpcode := by
  unfold classify
  split
  · simpa
  · cases findRow t b <;> simpa

theorem classify_eq_instr_iff {t : List Row} {b : Byte} {op : Op} :
    classify t b = .instr op ↔ b ≠ haltOpcode ∧ ∃ r, findRow t b = some r ∧ r.op = op := by
  rw [classify]
  by_cases hb : b = haltOpcode
  · simp [hb]
  · cases hf : findRow t b <;> simp [hb]

/-- An opcode byte that is not unknown decodes with any two operand bytes, under every table (R87). -/
theorem decode_of_classify_ne_unknown {t : List Row} {b : Byte} (h : classify t b ≠ .unknown) (b1 b2 : Byte) :
    ∃ i rest, decode t [b, b1, b2] = .ok (i, rest) := by
  cases hc : classify t b with
  | halt => exact ⟨.hlt, [b1, b2], by simp [decode, hc]⟩
  | instr op =>
    obtain ⟨i, rest, hi⟩ := decodeOperands_two op b1 b2
    exact ⟨i, rest, by simp [decode, hc, hi]⟩
  | unknown => exact absurd hc h

/-! ## The table as a one-to-one map -/

/-- Where a key occurs once in a list, searching for it finds the one element that has it. -/
theorem find?_key_eq_some_iff {α β : Type} [BEq β] [LawfulBEq β] {f : α → β} {l : List α} (hl : (l.map f).Nodup)
    {k : β} {a : α} : l.find? (fun x => f x == k) = some a ↔ a ∈ l ∧ f a = k := by
  constructor
  · intro h
    exact ⟨List.mem_of_find?_eq_some h, by simpa using List.find?_some h⟩
  · rintro ⟨ha, rfl⟩
    obtain ⟨b, hb⟩ := Option.isSome_iff_exists.mp (List.find?_isSome (p := fun x => f x == f a) |>.mpr ⟨a, ha, by simp⟩)
    have hkey : f b = f a := by simpa using List.find?_some hb
    rw [hb, List.inj_on_of_nodup_map hl (List.mem_of_find?_eq_some hb) ha hkey]

theorem mem_allOps (op : Op) : op ∈ allOps := by
  cases op <;> decide

/-- The constraints of D1 as propositions about rows. -/
theorem Config.wf_iff {c : Config} : c.wf = true ↔
    (c.table.map Row.opcode).Nodup ∧ (∀ r ∈ c.table, r.opcode ≠ haltOpcode) ∧ ldaImmAtA9 c.table = true ∧
    (c.table.map Row.op).Nodup ∧ ∀ op, (opcodeOf c.table op).isSome := by
  simp [Config.wf, opcodesDistinct, sentinelExcluded, opsCovered, and_assoc, mem_allOps]

/-- Under D1 the byte that the table gives an operation is the one byte classified as that operation (R83, R84). -/
theorem opcodeOf_eq_some_iff_classify {c : Config} (h : c.wf = true) {op : Op} {b : Byte} :
    opcodeOf c.table op = some b ↔ classify c.table b = .instr op := by
  obtain ⟨hcodes, hsentinel, -, hops, -⟩ := Config.wf_iff.mp h
  simp only [classify_eq_instr_iff, opcodeOf, findRow, Option.map_eq_some_iff, find?_key_eq_some_iff hcodes,
    find?_key_eq_some_iff hops]
  constructor
  · rintro ⟨r, ⟨hr, rfl⟩, rfl⟩
    exact ⟨hsentinel r hr, r, ⟨hr, rfl⟩, rfl⟩
  · rintro ⟨-, r, ⟨hr, rfl⟩, rfl⟩
    exact ⟨r, ⟨hr, rfl⟩, rfl⟩

/-- Under D1 the encoding of an instruction is the one opcode byte of its class, then its operand bytes (R80). -/
theorem encode_eq_some_iff {c : Config} (h : c.wf = true) {i : Instr} {es : List Byte} :
    encode c.table i = some es ↔ ∃ b, classify c.table b = i.opcodeClass ∧ es = b :: i.operandBytes := by
  cases hop : i.op with
  | none =>
    obtain rfl := Instr.op_eq_none_iff.mp hop
    simp [encode, Instr.opcodeClass, Instr.op, Instr.operandBytes, classify_eq_halt_iff, eq_comm (a := es)]
  | some op => simp [encode, Instr.opcodeClass, hop, opcodeOf_eq_some_iff_classify h, eq_comm (a := es)]

/-- Under D1 every instruction has an encoding (R83, R84). -/
theorem exists_encode {c : Config} (h : c.wf = true) (i : Instr) : ∃ es, encode c.table i = some es := by
  obtain ⟨-, -, -, -, hcovered⟩ := Config.wf_iff.mp h
  cases hop : i.op with
  | none => exact ⟨[haltOpcode], by simp [encode, hop]⟩
  | some op =>
    obtain ⟨b, hb⟩ := Option.isSome_iff_exists.mp (hcovered op)
    exact ⟨b :: i.operandBytes, by simp [encode, hop, hb]⟩

/-- Under D1 decoding is the inverse of encoding: it reads an instruction exactly from its encoding (R80, R82). -/
theorem decode_eq_ok_iff_encode {c : Config} (h : c.wf = true) {i : Instr} {bs rest : List Byte} :
    decode c.table bs = .ok (i, rest) ↔ ∃ es, encode c.table i = some es ∧ bs = es ++ rest := by
  simp [decode_eq_ok_iff, encode_eq_some_iff h]

/-! ## Counting opcode bytes -/

theorem isSome_findRow_iff {t : List Row} {b : Byte} : (findRow t b).isSome ↔ b ∈ t.map Row.opcode := by
  simp [Option.isSome_iff_ne_none, findRow_eq_none_iff]

/-- An opcode byte is unknown when it is neither the sentinel nor in the table (R87). -/
theorem classify_eq_unknown_iff {t : List Row} {b : Byte} :
    classify t b = .unknown ↔ b ∉ haltOpcode :: t.map Row.opcode := by
  rw [List.mem_cons, ← isSome_findRow_iff, classify]
  by_cases hb : b = haltOpcode
  · simp [hb]
  · cases hf : findRow t b <;> simp [hb]

/-- Of the 256 byte values those in a list without repetition are as many as its length. -/
theorem countP_range_mem {bs : List Byte} (h : bs.Nodup) :
    (List.range 256).countP (fun n => BitVec.ofNat 8 n ∈ bs) = bs.length := by
  have hperm : ((List.range 256).filter fun n => BitVec.ofNat 8 n ∈ bs).Perm (bs.map BitVec.toNat) := by
    refine (List.perm_ext_iff_of_nodup (List.nodup_range.filter _) (h.map fun _ _ => BitVec.eq_of_toNat_eq)).mpr fun n => ?_
    simp only [List.mem_filter, List.mem_range, decide_eq_true_eq, List.mem_map]
    constructor
    · rintro ⟨hn, hb⟩
      exact ⟨_, hb, Nat.mod_eq_of_lt hn⟩
    · rintro ⟨b, hb, rfl⟩
      exact ⟨b.isLt, by simpa using hb⟩
  rw [List.countP_eq_length_filter, hperm.length_eq, List.length_map]

/-- Of the 256 byte values a table with distinct opcodes has a row for as many as it has rows. -/
theorem countP_range_findRow {t : List Row} (h : (t.map Row.opcode).Nodup) :
    (List.range 256).countP (fun n => (findRow t (BitVec.ofNat 8 n)).isSome) = t.length := by
  calc (List.range 256).countP (fun n => (findRow t (BitVec.ofNat 8 n)).isSome)
    _ = (List.range 256).countP (fun n => BitVec.ofNat 8 n ∈ t.map Row.opcode) :=
      List.countP_congr fun n _ => by simp [isSome_findRow_iff]
    _ = t.length := by rw [countP_range_mem h, List.length_map]

/-- The byte values that are neither the sentinel nor an opcode of the table are the others of the 256. -/
theorem countP_range_unknown {t : List Row} (h : (haltOpcode :: t.map Row.opcode).Nodup) :
    (List.range 256).countP (fun n => classify t (BitVec.ofNat 8 n) == .unknown) + (t.length + 1) = 256 := by
  have hunknown : (List.range 256).countP (fun n => classify t (BitVec.ofNat 8 n) == .unknown) =
      (List.range 256).countP (fun n => ¬ decide (BitVec.ofNat 8 n ∈ haltOpcode :: t.map Row.opcode) = true) :=
    List.countP_congr fun n _ => by simp only [beq_iff_eq, classify_eq_unknown_iff, decide_eq_true_eq]
  have hknown : (List.range 256).countP (fun n => BitVec.ofNat 8 n ∈ haltOpcode :: t.map Row.opcode) = t.length + 1 := by
    rw [countP_range_mem h, List.length_cons, List.length_map]
  rw [hunknown, ← hknown, Nat.add_comm, ← List.length_eq_countP_add_countP, List.length_range]

end Sys2Proof

open Sys2Proof Sys2Proof.Machine Sys2Proof.Claims

/-- Settles O2: an encoding exists, and decoding is the inverse of encoding under D1. -/
theorem decodeOfEncode : Obligations.DecodeOfEncode := by
  intro c i rest h
  obtain ⟨es, hes⟩ := exists_encode h i
  exact ⟨es, hes, (decode_eq_ok_iff_encode h).mpr ⟨es, hes, rfl⟩⟩

/-- Settles O3: decoding is the inverse of encoding under D1. -/
theorem encodeOfDecode : Obligations.EncodeOfDecode := by
  intro c i bs rest h hdec
  exact (decode_eq_ok_iff_encode h).mp hdec

/-- Settles O5: the opcode byte fixes the operation, the operation the length, and decoding takes the opcode byte and the
operand bytes. -/
theorem lengthByOpcodeAlone : Obligations.LengthByOpcodeAlone := by
  intro t b r1 r2 q1 q2 i1 i2 h1 h2
  obtain ⟨b1, hclass1, hbytes1⟩ := decode_eq_ok_iff.mp h1
  obtain ⟨b2, hclass2, hbytes2⟩ := decode_eq_ok_iff.mp h2
  obtain ⟨rfl, rfl⟩ := List.cons.inj hbytes1
  obtain ⟨rfl, -⟩ := List.cons.inj hbytes2
  have hop : i1.op = i2.op := Instr.op_eq_of_opcodeClass_eq (hclass1.symm.trans hclass2)
  refine ⟨by simp only [Instr.length, hop], ?_⟩
  rw [Instr.length_eq_operandBytes, List.length_cons, List.length_append, Nat.add_right_comm]

/-- Settles O1: the decoder is run on each word. -/
theorem handWrittenWordsDecode : Obligations.HandWrittenWordsDecode := by
  unfold Obligations.HandWrittenWordsDecode
  decide

/-- Settles O4: the sentinel's test and the totality of decoding hold of every table, the two counts are of the default one. -/
theorem everyByteClassified : Obligations.EveryByteClassified := by
  have hdistinct : (haltOpcode :: defaultTable.map Row.opcode).Nodup := by decide
  have hunknown := countP_range_unknown hdistinct
  exact ⟨fun _ => classify_eq_halt_iff, countP_range_findRow hdistinct.of_cons, Nat.add_right_cancel hunknown,
    fun _ b1 b2 h => decode_of_classify_ne_unknown h b1 b2⟩

end

section
/-!
PROOFS. The family 40_execution_loop: the host's moves and the end of a step keep the invariant of a session; what an
instruction does to memory, PC and the cycle count, by the kind of its effect; what a step answers and exposes; and the run.
-/

namespace Sys2Proof.Machine

open Sys2Proof Sys2Proof.Claims

/-! ## The host's moves and the invariant -/

/-- Before reset the invariant only asks that memory is canonical, the table meets D1 and no context is open. -/
theorem State.inv_iff_of_off {s : State} (h : s.run = .off) :
    s.Inv ↔ Memory.wf s.mem ∧ s.cfg.wf = true ∧ s.ctx = none := by
  simp [State.Inv, State.faultRecorded, RunState.isFaulted, h]

theorem State.wf_pokeBytes (s : State) (addr : Word) (bs : List Byte) (h : Memory.wf s.mem) :
    Memory.wf (s.pokeBytes addr bs).mem := by
  induction bs generalizing s addr with
  | nil => exact h
  | cons b bs ih => exact ih _ _ (s.wf_poke addr b h)

/-- Under D1 the opcode that reset forces is not the sentinel (70 R260). -/
theorem Config.jmpOpcode_ne_haltOpcode {c : Config} (h : c.wf = true) : Config.jmpOpcode c ≠ haltOpcode := by
  obtain ⟨-, -, -, -, hcovered⟩ := Config.wf_iff.mp h
  obtain ⟨b, hb⟩ := Option.isSome_iff_exists.mp (hcovered .jmpAbs)
  obtain ⟨hne, -⟩ := classify_eq_instr_iff.mp ((opcodeOf_eq_some_iff_classify h).mp hb)
  rwa [Config.jmpOpcode, hb]

/-- Reset establishes the invariant from any memory in canonical form and any table that meets D1 (70 R260, R262). -/
theorem State.inv_resetOp {s : State} (hmem : Memory.wf s.mem) (hcfg : s.cfg.wf = true) : s.resetOp.Inv :=
  ⟨hmem, hcfg, fun _ => Config.jmpOpcode_ne_haltOpcode hcfg, nofun, fun _ => by simp, fun _ => rfl, rfl⟩

/-- A host move answers a next state exactly when R266 opens it, and then its effect. -/
theorem hostMove_eq_next_iff {m : HostMove} {s t : State} :
    hostMove m s = .next t ↔ m.isOpen s.run = true ∧ m.apply s = t := by
  unfold hostMove
  split <;> simp [*]

/-- The load port is open only before reset (70 R266). -/
theorem HostMove.isOpen_loadProgram_iff {addr : Word} {bs : List Byte} {r : RunState} :
    (HostMove.loadProgram addr bs).isOpen r = true ↔ r = .off := by
  cases r <;> simp [HostMove.isOpen]

/-- Every open move of the host keeps the invariant: the load port keeps memory canonical, the breakpoint manager stands in
no clause, and reset establishes the invariant anew. -/
theorem hostMove_keeps_inv {m : HostMove} {s t : State} (hs : s.Inv) (h : hostMove m s = .next t) : t.Inv := by
  obtain ⟨hopen, rfl⟩ := hostMove_eq_next_iff.mp h
  cases m with
  | loadProgram addr bs =>
    have hoff := HostMove.isOpen_loadProgram_iff.mp hopen
    obtain ⟨hmem, hcfg, hctx⟩ := (State.inv_iff_of_off hoff).mp hs
    rw [HostMove.apply, State.pokeBytes_writes_mem]
    exact (State.inv_iff_of_off (s := { s with mem := (s.pokeBytes addr bs).mem }) hoff).mpr
      ⟨s.wf_pokeBytes addr bs hmem, hcfg, hctx⟩
  | register b => exact hs
  | setSingleStep b => exact hs
  | reset =>
    obtain ⟨hmem, hcfg, -⟩ := hs
    exact State.inv_resetOp hmem hcfg

/-! ## Reachable states -/

/-- The induction over sessions: creation meets the invariant, and moves and steps keep it. -/
theorem Reachable.inv {s : State} (h : Reachable s) : s.Inv := by
  induction h with
  | created cfg a x y sp p ir pc hcfg => exact (State.inv_iff_of_off rfl).mpr ⟨State.reset_mem_wf, hcfg, rfl⟩
  | move m _ hmove ih => exact hostMove_keeps_inv ih hmove
  | step _ hstep ih => exact stepKeepsInvariant _ _ ih hstep

/-- The end of a step leaves in IR the byte at PC (40 R106). -/
theorem State.finishStep_ir (u : State) : u.finishStep.ir = u.finishStep.byteAt u.finishStep.pc := by
  obtain ⟨-, -, -, -, -, keepPc, keepMem, -⟩ := u.finishStep_keeps
  rw [u.finishStep_fetch.1, keepPc, State.byteAt, State.byteAt, keepMem]

/-- A step that leaves the machine running ended with a fetch (40 R119 (a)). -/
theorem step_ir_of_running {s t : State} (h : step s = .next t) (ht : t.run = .running) : t.ir = t.byteAt t.pc := by
  obtain ⟨-, ⟨e, -, rfl⟩ | ⟨-, rfl⟩ | ⟨i, u, -, -, -, rfl⟩⟩ := step_next_cases h
  · cases ht
  · cases ht
  · exact u.finishStep_ir

/-! ## What an instruction does, by the kind of its effect -/

/-- Whether an instruction, executed under the flags `p`, sends PC elsewhere than past itself (44 R170 to R174). -/
def redirects (i : Instr) (p : Byte) : Bool :=
  match i with
  | .jmpAbs _ | .jmpInd _ | .jsr _ | .rts => true
  | .bne _ => !p.getLsbD 1
  | _ => false

theorem redirects_bne (rel p : Byte) : redirects (.bne rel) p = !p.getLsbD 1 := rfl

/-- An instruction with a destination register charges the cycle units of its form, whatever the flags (40 R117). -/
theorem exec_of_destReg_cycles {i : Instr} {r : Reg} (hd : destReg i = some r) (s : State) (taken : Bool) :
    ∃ v, exec i s = .next (s.afterSet (cyclesOf i taken) r v i.length) := by
  cases i <;> cases hd
  all_goals
    simp only [exec_ldaImm, exec_ldxImm, exec_ldyImm, exec_ldaAbs, exec_ldxAbs, exec_ldyAbs, exec_ldaAbx, exec_ldyAbx,
      exec_ldaAby, exec_ldxAby, exec_ldaIzx, exec_ldaIzy, exec_adcAbs, exec_inx, exec_iny, exec_dex, exec_dey, exec_tax,
      exec_txa, exec_tay, exec_tya]
    exact ⟨_, rfl⟩

/-- An instruction that writes a flag is one byte long and charges no cycle unit (43, 40 R117). -/
theorem length_cyclesOf_of_flagWritten {i : Instr} {f : Flag} {b : Bool} (h : flagWritten i = some (f, b))
    (taken : Bool) : i.length = 1 ∧ cyclesOf i taken = 0 := by
  cases i <;> cases h <;> exact ⟨rfl, rfl⟩

/-- What an instruction that writes no register of A, X, Y and no flag can do: it stores a byte, or only moves PC, past
itself unless it redirects control; or it is JSR, RTS or the sentinel. -/
theorem exec_cases_of_no_write {i : Instr} {s t : State} (hd : destReg i = none) (hf : flagWritten i = none)
    (h : exec i s = .next t) :
    (∃ addr v, (i = .staAbs addr ∨ i = .stxAbs addr) ∧ t = s.afterStore addr v) ∨
    (∃ pc, (redirects i s.p = false → pc = s.start + BitVec.ofNat 16 i.length) ∧
      t = (s.charge (cyclesOf i (!s.p.getLsbD 1))).setPc pc) ∨
    (∃ addr, i = .jsr addr) ∨ i = .rts ∨ i = .hlt := by
  cases i <;> cases hd <;> cases hf
  case staAbs addr =>
    cases (exec_staAbs s addr).symm.trans h
    exact .inl ⟨addr, _, .inl rfl, rfl⟩
  case stxAbs addr =>
    cases (exec_stxAbs s addr).symm.trans h
    exact .inl ⟨addr, _, .inr rfl, rfl⟩
  case jmpAbs addr =>
    cases (exec_jmpAbs s addr).symm.trans h
    exact .inr (.inl ⟨addr, nofun, rfl⟩)
  case jmpInd ptr =>
    cases (exec_jmpInd s ptr).symm.trans h
    exact .inr (.inl ⟨_, nofun, rfl⟩)
  case nop =>
    cases (exec_nop s).symm.trans h
    exact .inr (.inl ⟨_, fun _ => rfl, by rw [cyclesOf, State.charge_zero]; rfl⟩)
  case bne rel =>
    cases hz : s.p.getLsbD 1 with
    | false =>
      cases (exec_bne_taken s rel hz).symm.trans h
      exact .inr (.inl ⟨_, by rw [redirects_bne, hz]; nofun, rfl⟩)
    | true =>
      cases (exec_bne_passed s rel hz).symm.trans h
      exact .inr (.inl ⟨_, fun _ => rfl, rfl⟩)
  case jsr addr => exact .inr (.inr (.inl ⟨addr, rfl⟩))
  case rts => exact .inr (.inr (.inr (.inl rfl)))
  case hlt => exact .inr (.inr (.inr (.inr rfl)))

/-- What an instruction can do, with what it is: it sets its destination register, writes its flag, stores a byte, or only
moves PC, past itself unless it redirects control; or it is JSR, RTS or the sentinel. -/
theorem exec_cases {i : Instr} {s t : State} (h : exec i s = .next t) :
    (∃ r v, t = s.afterSet (cyclesOf i (!s.p.getLsbD 1)) r v i.length) ∨
    (∃ f b, flagWritten i = some (f, b) ∧ t = s.afterFlag f b) ∨
    (∃ addr v, (i = .staAbs addr ∨ i = .stxAbs addr) ∧ t = s.afterStore addr v) ∨
    (∃ pc, (redirects i s.p = false → pc = s.start + BitVec.ofNat 16 i.length) ∧
      t = (s.charge (cyclesOf i (!s.p.getLsbD 1))).setPc pc) ∨
    (∃ addr, i = .jsr addr) ∨ i = .rts ∨ i = .hlt := by
  cases hd : destReg i with
  | some r =>
    obtain ⟨v, hv⟩ := exec_of_destReg_cycles hd s (!s.p.getLsbD 1)
    cases hv.symm.trans h
    exact .inl ⟨r, v, rfl⟩
  | none =>
    cases hf : flagWritten i with
    | some w =>
      cases (exec_of_flagWritten hf s).symm.trans h
      exact .inr (.inl ⟨w.1, w.2, rfl, rfl⟩)
    | none => exact .inr (.inr (exec_cases_of_no_write hd hf h))

/-- An instruction writes memory at most at the addresses it stores to (40 R119 (b)). -/
theorem exec_sameMemBut_storedAt {i : Instr} {s t : State} (h : exec i s = .next t) :
    SameMemBut (storedAt i s) s t := by
  rcases exec_cases h with ⟨r, v, rfl⟩ | ⟨f, b, -, rfl⟩ | ⟨addr, v, hi, rfl⟩ |
      ⟨pc, -, rfl⟩ | ⟨addr, rfl⟩ | rfl | rfl
  · intro k _
    simp [State.afterSet]
  · exact fun _ _ => rfl
  · have hstored : storedAt i s = [addr] := by obtain rfl | rfl := hi <;> rfl
    rw [hstored]
    exact (s.charge 3).sameMemBut_poke addr v
  · exact fun _ _ => rfl
  · cases (exec_jsr s addr).symm.trans h
    intro k hk
    obtain ⟨hk0, hk1⟩ : k ≠ stackAddr s.sp ∧ k ≠ stackAddr (s.sp - 1) := by simpa [storedAt] using hk
    rw [State.byteAt_setPc, State.byteAt_setSp, State.byteAt_poke_ne _ _ hk1, State.byteAt_poke_ne _ _ hk0,
      State.byteAt_charge]
  · cases (exec_rts s).symm.trans h
    exact fun _ _ => rfl
  · cases h
    exact fun _ _ => rfl

/-- An instruction that does not redirect control leaves PC past its own bytes (40 R115). -/
theorem exec_pcPast {i : Instr} {s t : State} (h : exec i s = .next t) (hi : i ≠ .hlt)
    (hstraight : redirects i s.p = false) : PcPast i.length s t := by
  have hpc : t.pc = s.start + BitVec.ofNat 16 i.length := by
    rcases exec_cases h with ⟨r, v, rfl⟩ | ⟨f, b, hf, rfl⟩ | ⟨addr, v, rfl | rfl, rfl⟩ |
        ⟨pc, hpc, rfl⟩ | ⟨addr, rfl⟩ | rfl | rfl
    · rfl
    · rw [(length_cyclesOf_of_flagWritten hf true).1]
      rfl
    · rfl
    · rfl
    · exact hpc hstraight
    · cases hstraight
    · cases hstraight
    · exact absurd rfl hi
  rw [PcPast, hpc, BitVec.toNat_add, BitVec.toNat_ofNat, Nat.add_mod_mod]

/-- An instruction charges the cycle units of the table of R117. -/
theorem exec_charged {i : Instr} {s t : State} (h : exec i s = .next t) :
    Charged (cyclesOf i (!s.p.getLsbD 1)) s t := by
  rcases exec_cases h with ⟨r, v, rfl⟩ | ⟨f, b, hf, rfl⟩ | ⟨addr, v, rfl | rfl, rfl⟩ |
      ⟨pc, -, rfl⟩ | ⟨addr, rfl⟩ | rfl | rfl
  · simp [Charged, State.afterSet]
  · rw [(length_cyclesOf_of_flagWritten hf _).2]
    simp [Charged, State.afterFlag]
  · rfl
  · rfl
  · rfl
  · cases (exec_jsr s addr).symm.trans h
    rfl
  · cases (exec_rts s).symm.trans h
    rfl
  · cases h
    simp [Charged, cyclesOf]

/-! ## What a step answers and exposes -/

theorem State.instrAhead_eq_ok_iff {s : State} {i : Instr} :
    s.instrAhead = .ok i ↔ ∃ rest, decode s.cfg.table s.instrBytes = .ok (i, rest) := by
  unfold State.instrAhead
  split <;> simp [*]

/-- A running machine whose sentinel is ahead takes the sentinel's effect alone (44 R175). -/
theorem step_of_hlt_ahead {s : State} (hrun : s.run = .running) (hahead : s.instrAhead = .ok .hlt) :
    step s = exec .hlt { s with event := .none, trace := none } := by
  rw [step_of_running hrun, stepRunning, hahead]

/-- A running machine with no instruction ahead takes the fault (60 R230). -/
theorem step_of_no_instrAhead {s : State} {e : DecodeError} (hrun : s.run = .running) (hahead : s.instrAhead = .error e) :
    step s = .next s.openStep.takeUnknownOpcode := by
  rw [step_of_running hrun, stepRunning, hahead]

/-- A running machine with an instruction ahead executes it, and the step always completes (40 R101, R104). -/
theorem step_executes {s : State} {i : Instr} (hrun : s.run = .running) (hahead : s.instrAhead = .ok i)
    (hi : i ≠ .hlt) : ∃ u, exec i (s.openInstr i) = .next u ∧ step s = .next u.finishStep := by
  obtain ⟨u, hu⟩ := exec_completes i (s.openInstr i)
  exact ⟨u, hu, step_of_instrAhead hrun hahead hi hu⟩

/-- The check writes nothing that is exposed, so the row is that of the state the instruction left (40 R118). -/
theorem State.finishStep_trace (u : State) : u.finishStep.trace = u.traceRow := by
  unfold State.finishStep State.fetchNext
  dsimp only
  split <;> rfl

/-- The row that the step of an instruction exposes, given the state `u` the instruction left (40 R118). -/
theorem exec_openInstr_traceRow {s u : State} {i : Instr} (hu : exec i (s.openInstr i) = .next u) :
    u.traceRow = some { start := s.pc, opcode := s.ir, ops := i.operandBytes, a := u.a, x := u.x, y := u.y, sp := u.sp,
                        p := u.p, pc := u.pc, desc := lookup s.cfg.table s.ir,
                        cycles := cyclesOf i (!s.p.getLsbD 1) } := by
  have hctx : u.ctx = _ := exec_charged hu
  obtain ⟨hir, -⟩ := exec_keeps hu
  simp [State.traceRow, hctx, hir]

/-- The operand bytes of the instruction ahead are those after its opcode byte in memory (30_encoding R82, 40 R116). -/
theorem State.operandBytes_of_instrAhead {s : State} {i : Instr} (h : s.instrAhead = .ok i) :
    i.operandBytes = [s.byteAt (s.pc + 1), s.byteAt (s.pc + 2)].take (i.length - 1) := by
  obtain ⟨rest, hdec⟩ := State.instrAhead_eq_ok_iff.mp h
  obtain ⟨b, -, hbytes⟩ := decode_eq_ok_iff.mp hdec
  obtain ⟨-, hops⟩ := List.cons.inj hbytes
  rw [hops, Instr.length_eq_operandBytes, Nat.add_sub_cancel, List.take_left]

/-- The descriptor of the opcode ahead has the length of the instruction (30_encoding R86). -/
theorem State.lookup_length_of_instrAhead {s : State} {i : Instr} (h : s.instrAhead = .ok i) (hi : i ≠ .hlt) :
    (lookup s.cfg.table s.ir).map Descriptor.length = some i.length := by
  obtain ⟨r, hrow, hop⟩ := State.instrAhead_ok_op h hi
  simp [lookup, hrow, Row.descriptor, Instr.length, hop]

/-! ## The run -/

/-- A run takes no step of a machine that is not running (40 R107). -/
theorem runSteps_of_not_running {s : State} (h : s.run ≠ .running) (k : Nat) : runSteps k s = ([], s) := by
  cases k <;> simp [runSteps, h]

/-- A run of a running machine takes its step: a step that faults ends the run unreported, any other reports its event
(40 R107, 60 R230). -/
theorem runSteps_succ {s t : State} (hrun : s.run = .running) (h : step s = .next t) (k : Nat) :
    runSteps (k + 1) s =
      if t.run.isFaulted then ([], t) else (t.event :: (runSteps k t).1, (runSteps k t).2) := by
  simp only [runSteps, hrun, h, if_true]
  cases ht : t.run with
  | faulted op pc =>
    rw [runSteps_of_not_running (by simp [ht]) k]
    rfl
  | off => rfl
  | running => rfl
  | halted => rfl

/-- A run that has ended left no running machine, and the state it ended in has no step (10_state R37, 60 R244). -/
theorem step_of_ended {s : State} (h : s.ended = true) : s.run ≠ .running ∧ ∃ f, step s = .fault f := by
  obtain ⟨-, noStepHalted, noStepFaulted⟩ := stoppedMachineHasNoStep s
  cases hr : s.run with
  | off => simp [State.ended, RunState.isFaulted, hr] at h
  | running => simp [State.ended, RunState.isFaulted, hr] at h
  | halted => exact ⟨nofun, _, noStepHalted hr⟩
  | faulted op pc => exact ⟨nofun, _, noStepFaulted op pc hr⟩

/-- A run that has ended is the same under a larger bound on its steps. -/
theorem runSteps_add_of_ended {s : State} {k : Nat} (h : (runSteps k s).2.ended = true) (j : Nat) :
    runSteps (k + j) s = runSteps k s := by
  induction k generalizing s with
  | zero => exact runSteps_of_not_running (step_of_ended h).1 _
  | succ k ih =>
    by_cases hrun : s.run = .running
    · obtain ⟨t, ht⟩ := step_running_completes hrun
      rw [Nat.add_right_comm, runSteps_succ hrun ht, runSteps_succ hrun ht]
      rw [runSteps_succ hrun ht] at h
      split at h
      · rw [if_pos ‹_›, if_pos ‹_›]
      · rw [ih h]
    · rw [runSteps_of_not_running hrun, runSteps_of_not_running hrun]

end Sys2Proof.Machine

open Sys2Proof Sys2Proof.Machine Sys2Proof.Claims

/-- Settles O58, by induction over the session; the state after a step is reachable too, so its invariant excludes the
sentinel. -/
theorem reachableStatesAreGood : Obligations.ReachableStatesAreGood := by
  refine ⟨fun s hs => hs.inv, fun s t hs h ht => ⟨step_ir_of_running h ht, ?_⟩⟩
  obtain ⟨-, -, noSentinel, -⟩ := (hs.step h).inv
  exact noSentinel ht

/-- Settles O29: every instruction completes, and only the sentinel writes the run state. -/
theorem everyInstructionCompletes : Obligations.EveryInstructionCompletes := by
  intro i s
  obtain ⟨t, ht⟩ := exec_completes i s
  refine ⟨t, ht, ?_⟩
  split
  · next hi =>
    subst hi
    cases (exec_hlt s).symm.trans ht
    rfl
  · next hi => exact exec_keeps_run ht hi

/-- Settles O30, by the kinds of an instruction's effect. -/
theorem memoryWriters : Obligations.MemoryWriters :=
  fun _ _ _ h => exec_sameMemBut_storedAt h

/-- Settles O34: every instruction but the five that may redirect control, and the sentinel, passes its own bytes; a BNE
with Z set does not redirect. -/
theorem pcAdvance : Obligations.PcAdvance := by
  intro i s t h
  cases i
  case jmpAbs | jmpInd | jsr | rts => trivial
  case hlt => cases h; rfl
  case bne rel => exact fun hz => exec_pcPast h nofun (by rw [redirects_bne, hz]; rfl)
  all_goals exact exec_pcPast h nofun rfl

/-- Settles O39: the instruction ahead completes, no instruction writes RUN, and the end of the step fetches. -/
theorem stepEndsWithFetch : Obligations.StepEndsWithFetch := by
  intro s i hrun hahead hi
  obtain ⟨u, hu, hstep⟩ := step_executes hrun hahead hi
  obtain ⟨keepA, keepX, keepY, keepSp, keepP, keepPc, keepMem, -, noCtx⟩ := u.finishStep_keeps
  obtain ⟨fetchIr, fetchRun⟩ := u.finishStep_fetch
  rw [← fetchIr, (exec_keeps_run hu hi).trans hrun] at fetchRun
  exact ⟨u, _, hu, hstep, keepPc, u.finishStep_ir, fetchRun, noCtx, keepA, keepX, keepY, keepSp, keepP, keepMem⟩

/-- Settles O41: the exposed count is what the instruction charged on a context opened with none. -/
theorem cyclesAtCheck : Obligations.CyclesAtCheck := by
  intro s i hrun hahead hi
  obtain ⟨u, hu, hstep⟩ := step_executes hrun hahead hi
  exact ⟨_, _, hstep, u.finishStep_trace.trans (exec_openInstr_traceRow hu), rfl⟩

/-- Settles O42: the row is that of the state the instruction left, whose registers the end of the step keeps. -/
theorem traceAfterStep : Obligations.TraceAfterStep := by
  intro s i hrun hahead hi
  obtain ⟨u, hu, hstep⟩ := step_executes hrun hahead hi
  obtain ⟨keepA, keepX, keepY, keepSp, keepP, keepPc, -⟩ := u.finishStep_keeps
  exact ⟨_, _, hstep, u.finishStep_trace.trans (exec_openInstr_traceRow hu), rfl, rfl,
    State.operandBytes_of_instrAhead hahead, keepA.symm, keepX.symm, keepY.symm, keepSp.symm, keepP.symm, keepPc.symm, rfl,
    State.lookup_length_of_instrAhead hahead hi⟩

/-- Settles O59, by induction over the bound: a run that ended within it took the same steps. -/
theorem endedRunStays : Obligations.EndedRunStays :=
  fun j _ _ h => ⟨runSteps_add_of_ended h j, (step_of_ended h).2⟩

/-- Settles O60: a running machine always steps, and a run takes that step first. -/
theorem runCollectsEvents : Obligations.RunCollectsEvents := by
  refine ⟨fun _ _ => rfl, fun _ => rfl, fun k s h => runSteps_of_not_running h k, fun k s hrun => ?_⟩
  obtain ⟨t, ht⟩ := step_running_completes hrun
  exact ⟨t, ht, runSteps_succ hrun ht k⟩

/-- Settles O28: the two flags are those of `ZNOf`, and no value is both zero and at least 128. -/
theorem setZNRule : Obligations.SetZNRule := by
  intro s v
  have hzn : ZNOf v s.p (s.setZN v).p := znOf_flagsZN v s.p
  refine ⟨hzn, rfl, fun ⟨hz, hn⟩ => ?_⟩
  obtain ⟨zero, negative, -⟩ := hzn
  obtain rfl := zero.mp hz
  exact absurd (negative.mp hn) (by decide)

/-- Settles O35: the instruction decoded is the one ahead, and the state it is executed in is the one `openInstr` gives. -/
theorem stepRunsDecodedInstruction : Obligations.StepRunsDecodedInstruction := by
  intro s i rest hrun hdec
  have hahead : s.instrAhead = .ok i := State.instrAhead_eq_ok_iff.mpr ⟨rest, hdec⟩
  refine ⟨fun hi u hu => step_of_instrAhead hrun hahead hi hu, ?_⟩
  rintro rfl
  exact step_of_hlt_ahead hrun hahead

/-- Settles O36: with such an IR no instruction is ahead, and taking the fault writes RUN in the context just opened. -/
theorem unknownOpcodeFaults : Obligations.UnknownOpcodeFaults := by
  intro s hrun hir hrows
  obtain ⟨e, he⟩ := s.no_instrAhead_iff.mpr ⟨hir, hrows⟩
  exact ⟨_, step_of_no_instrAhead hrun he, rfl⟩

end

section
/-!
PROOFS. The family 41_load_store: every load ends in the state `afterSet` and every store in `afterStore`, read once in the
words of the statements; and the operand addresses and the zero-page pointer as numbers.
-/

namespace Sys2Proof.Machine

open Sys2Proof Sys2Proof.Claims

/-! ## The bytes of an instruction -/

theorem low_eq_loByte (w : Word) : low w = loByte w := rfl

theorem high_eq_hiByte (w : Word) : high w = hiByte w := by
  rw [high, hiByte, BitVec.extractLsb', Nat.shiftRight_eq_div_pow]

/-- The default map meets D1, so the bytes that it encodes an instruction in are read back as that instruction (R82). -/
theorem encodedAs_iff_encode {i : Instr} {bs : List Byte} :
    EncodedAs i bs ↔ encode defaultTable i = some bs := by
  have hwf : defaultConfig.wf = true := by decide
  refine ⟨And.left, fun h => ⟨h, ?_⟩⟩
  exact (decode_eq_ok_iff_encode (c := defaultConfig) hwf).mpr ⟨bs, h, by simp⟩

/-- An encoding with a 16-bit operand has the low byte of the operand first (R82). -/
theorem encodedAs_of_encode_word {i : Instr} {b : Byte} {w : Word}
    (h : encode defaultTable i = some [b, loByte w, hiByte w]) : EncodedAs i [b, low w, high w] := by
  rwa [low_eq_loByte, high_eq_hiByte, encodedAs_iff_encode]

/-! ## The operand addresses as numbers -/

theorem zext16_eq_ofNat (v : Byte) : zext16 v = BitVec.ofNat 16 v.toNat := (BitVec.ofNat_toNat 16 v).symm

/-- A base plus an unsigned index, modulo 65536 (40 R112). -/
theorem addr_ofNat_toNat_add_index (k : Word) (v : Byte) : BitVec.ofNat 16 (k.toNat + v.toNat) = k + zext16 v := by
  rw [addr_ofNat_toNat_add, zext16_eq_ofNat]

/-- An address within page zero, the sum wrapping at 8 bits (40 R113, R114). -/
theorem zext16_add_eq_ofNat (u v : Byte) : zext16 (u + v) = BitVec.ofNat 16 ((u.toNat + v.toNat) % 256) := by
  rw [zext16_eq_ofNat, BitVec.toNat_add]

theorem wordOf_eq_ofNat (lo hi : Byte) : wordOf lo hi = BitVec.ofNat 16 (lo.toNat + 256 * hi.toNat) := by
  rw [Nat.add_comm, ← toNat_wordOf, BitVec.ofNat_toNat, BitVec.setWidth_eq]

theorem memWord_eq_wordAt (s : State) (k : Word) : memWord s k = s.wordAt k :=
  (wordOf_eq_ofNat (s.byteAt k) (s.byteAt (k + 1))).symm

/-- The pointer of IZX and IZY, read at the number `zp + idx` (40 R113, R114). -/
theorem zeroPagePtr_eq_zpPointer (s : State) (zp idx : Byte) :
    zeroPagePtr s (zp.toNat + idx.toNat) = s.zpPointer s.cfg.zpWrap zp idx := by
  cases hw : s.cfg.zpWrap with
  | true =>
    have hnext : zext16 (zp + idx + 1) = BitVec.ofNat 16 ((zp.toNat + idx.toNat + 1) % 256) := by
      rw [zext16_add_eq_ofNat, BitVec.toNat_add]
      exact congrArg (BitVec.ofNat 16) (Nat.mod_add_mod _ 256 1)
    simp only [zeroPagePtr, State.zpPointer, hw, if_true, hnext, zext16_add_eq_ofNat, wordOf_eq_ofNat]
  | false =>
    have hptr : BitVec.ofNat 16 (zp.toNat + idx.toNat) = zext16 zp + zext16 idx := by
      rw [BitVec.ofNat_add, zext16_eq_ofNat, zext16_eq_ofNat]
    simp [zeroPagePtr, State.zpPointer, hw, hptr, memWord_eq_wordAt]

/-! ## The two effects of the family -/

theorem pcPast_of_pc_eq {s t : State} {n : Nat} (h : t.pc = s.start + BitVec.ofNat 16 n) : PcPast n s t := by
  rw [PcPast, h, BitVec.toNat_add, BitVec.toNat_ofNat, Nat.add_mod_mod]

/-- Setting a register, Z and N, advancing and charging leaves memory, SP, the control state and the outputs. -/
theorem State.afterSet_frame (s : State) (n : Nat) (r : Reg) (v : Byte) (len : Nat) :
    (s.afterSet n r v len).sp = s.sp ∧ SameMem s (s.afterSet n r v len) ∧ Charged n s (s.afterSet n r v len) ∧
    SameRest s (s.afterSet n r v len) := by
  simp [State.afterSet, SameMem, Charged, SameRest]

/-- An instruction that ends in `afterSet`, past its own bytes, gives a register a value and changes nothing else. -/
theorem setsReg_of_exec {i : Instr} {bs : List Byte} {r : Reg} {v : Byte} {n : Nat} {s : State} (henc : EncodedAs i bs)
    (hexec : exec i s = .next (s.afterSet n r v bs.length)) : SetsReg i bs r v n s :=
  ⟨henc, _, hexec, s.afterSet_reg_self n r v _, fun _ hq => s.afterSet_reg_ne n v _ hq, znOf_flagsZN v s.p,
    pcPast_of_pc_eq rfl, s.afterSet_frame n r v _⟩

/-- A three-byte instruction that ends in `afterStore` stores a byte and changes nothing else. -/
theorem storesByte_of_exec {i : Instr} {b b1 b2 : Byte} {k : Word} {v : Byte} {s : State}
    (henc : EncodedAs i [b, b1, b2]) (hexec : exec i s = .next (s.afterStore k v)) :
    StoresByte i [b, b1, b2] k v s := by
  have hregs : SameRegs s (s.afterStore k v) := fun q => by simp [State.afterStore]
  exact ⟨henc, _, hexec, s.byteAt_afterStore_self k v, (s.charge 3).sameMemBut_poke k v, hregs, rfl, rfl,
    pcPast_of_pc_eq rfl, rfl, rfl, rfl, rfl, rfl, rfl, rfl⟩

end Sys2Proof.Machine

open Sys2Proof Sys2Proof.Machine Sys2Proof.Claims

/-- Settles O13: the pointer that the model reads is the one at the number zp + X, under both settings of `ZP_WRAP`. -/
theorem ldaPreIndexedResult : Obligations.LdaPreIndexedResult := by
  intro s zp
  rw [zeroPagePtr_eq_zpPointer]
  exact setsReg_of_exec (encodedAs_iff_encode.mpr rfl) (exec_ldaIzx s zp)

/-- Settles O14: the pointer is the one of O13 with index 0, and Y is added to it modulo 65536. -/
theorem ldaPostIndexedResult : Obligations.LdaPostIndexedResult := by
  intro s zp
  have hptr : zeroPagePtr s zp.toNat = s.zpPointer s.cfg.zpWrap zp 0 := zeroPagePtr_eq_zpPointer s zp 0
  rw [hptr, addr_ofNat_toNat_add_index]
  exact setsReg_of_exec (encodedAs_iff_encode.mpr rfl) (exec_ldaIzy s zp)

/-- Settles O16: STA and STX are the two stores, of A and of X, at the operand address. -/
theorem storeAbsoluteResult : Obligations.StoreAbsoluteResult := by
  intro s addr
  exact ⟨storesByte_of_exec (encodedAs_of_encode_word rfl) (exec_staAbs s addr),
    storesByte_of_exec (encodedAs_of_encode_word rfl) (exec_stxAbs s addr), rfl⟩

/-- Settles O10: the three immediate loads set their register to the operand. -/
theorem loadImmediateResult : Obligations.LoadImmediateResult := by
  intro s imm
  exact ⟨setsReg_of_exec (encodedAs_iff_encode.mpr rfl) (exec_ldaImm s imm),
    setsReg_of_exec (encodedAs_iff_encode.mpr rfl) (exec_ldxImm s imm),
    setsReg_of_exec (encodedAs_iff_encode.mpr rfl) (exec_ldyImm s imm)⟩

/-- Settles O11: the three absolute loads set their register to the byte at the operand address. -/
theorem loadAbsoluteResult : Obligations.LoadAbsoluteResult := by
  intro s addr
  exact ⟨setsReg_of_exec (encodedAs_of_encode_word rfl) (exec_ldaAbs s addr),
    setsReg_of_exec (encodedAs_of_encode_word rfl) (exec_ldxAbs s addr),
    setsReg_of_exec (encodedAs_of_encode_word rfl) (exec_ldyAbs s addr)⟩

/-- Settles O12: the number operand + index is the model's address, and the four loads read there. -/
theorem loadIndexedResult : Obligations.LoadIndexedResult := by
  intro s addr
  simp only [addr_ofNat_toNat_add_index]
  exact ⟨setsReg_of_exec (encodedAs_of_encode_word rfl) (exec_ldaAbx s addr),
    setsReg_of_exec (encodedAs_of_encode_word rfl) (exec_ldaAby s addr),
    setsReg_of_exec (encodedAs_of_encode_word rfl) (exec_ldxAby s addr),
    setsReg_of_exec (encodedAs_of_encode_word rfl) (exec_ldyAbx s addr)⟩

end

section
/-!
PROOFS. The family 42_incdec_transfer: the one-byte instructions that set a register end in `afterSet`, and one more or one
less of a byte as a number modulo 256.
-/

namespace Sys2Proof.Machine

open Sys2Proof Sys2Proof.Claims

/-! ## One more and one less, modulo 256 -/

theorem byte_ofNat_toNat_add (v : Byte) (n : Nat) : BitVec.ofNat 8 (v.toNat + n) = v + BitVec.ofNat 8 n := by
  rw [BitVec.ofNat_add, BitVec.ofNat_toNat, BitVec.setWidth_eq]

theorem byte_ofNat_toNat_add_one (v : Byte) : BitVec.ofNat 8 (v.toNat + 1) = v + 1 :=
  byte_ofNat_toNat_add v 1

/-- Adding 255 takes one away, modulo 256 (42 R152, R153). -/
theorem byte_ofNat_toNat_add_255 (v : Byte) : BitVec.ofNat 8 (v.toNat + 255) = v - 1 := by
  have hneg : BitVec.ofNat 8 255 = -1 := by decide
  rw [byte_ofNat_toNat_add, hneg, BitVec.sub_eq_add_neg]

end Sys2Proof.Machine

open Sys2Proof Sys2Proof.Machine Sys2Proof.Claims

/-- Settles O17: the model adds and subtracts one in a byte, which is the sum with 1 or with 255 modulo 256. -/
theorem incDecResult : Obligations.IncDecResult := by
  intro s
  simp only [byte_ofNat_toNat_add_one, byte_ofNat_toNat_add_255]
  exact ⟨setsReg_of_exec (encodedAs_iff_encode.mpr rfl) (exec_inx s),
    setsReg_of_exec (encodedAs_iff_encode.mpr rfl) (exec_iny s),
    setsReg_of_exec (encodedAs_iff_encode.mpr rfl) (exec_dex s),
    setsReg_of_exec (encodedAs_iff_encode.mpr rfl) (exec_dey s)⟩

/-- Settles O18: each transfer sets its destination to the source register. -/
theorem transferResult : Obligations.TransferResult := by
  intro s
  exact ⟨setsReg_of_exec (encodedAs_iff_encode.mpr rfl) (exec_tax s),
    setsReg_of_exec (encodedAs_iff_encode.mpr rfl) (exec_txa s),
    setsReg_of_exec (encodedAs_iff_encode.mpr rfl) (exec_tay s),
    setsReg_of_exec (encodedAs_iff_encode.mpr rfl) (exec_tya s)⟩

end

section
/-!
PROOFS. The family 43_flag_nop: a flag instruction ends in `afterFlag` and NOP only moves PC, each read once in the words of
the statements.
-/

namespace Sys2Proof.Machine

open Sys2Proof Sys2Proof.Claims

theorem Flag.bit_lt_eight (f : Flag) : f.bit < 8 := by
  cases f <;> decide

/-- Writing a flag and advancing leaves SP, memory, the context, the control state and the outputs. -/
theorem State.afterFlag_frame (s : State) (f : Flag) (v : Bool) :
    (s.afterFlag f v).sp = s.sp ∧ SameMem s (s.afterFlag f v) ∧ Charged 0 s (s.afterFlag f v) ∧
    SameRest s (s.afterFlag f v) := by
  simp [State.afterFlag, SameMem, Charged, SameRest]

/-- A one-byte instruction that ends in `afterFlag` gives the flag's bit a value and changes nothing else. -/
theorem writesBit_of_exec {i : Instr} {b : Byte} {f : Flag} {v : Bool} {s : State}
    (henc : encode defaultTable i = some [b]) (hexec : exec i s = .next (s.afterFlag f v)) :
    WritesBit i b f.bit v s := by
  have hself : (s.afterFlag f v).p.getLsbD f.bit = v := (getLsbD_putFlag _ f v _ f.bit_lt_eight).trans (if_pos rfl)
  have hother : ∀ j < 8, j ≠ f.bit → (s.afterFlag f v).p.getLsbD j = s.p.getLsbD j := fun j hj hne =>
    (getLsbD_putFlag _ f v j hj).trans (if_neg hne)
  exact ⟨encodedAs_iff_encode.mpr henc, _, hexec, hself, hother, pcPast_of_pc_eq rfl, s.afterFlag_sameRegs f v,
    s.afterFlag_frame f v⟩

/-- An instruction that charges `n` cycle units and moves PC does nothing else. -/
theorem goesTo_of_exec {i : Instr} {target : Word} {n : Nat} {s : State}
    (hexec : exec i s = .next ((s.charge n).setPc target)) : GoesTo i target n s := by
  have hregs : SameRegs s ((s.charge n).setPc target) := fun q => by rw [State.reg_setPc, State.reg_charge]
  exact ⟨_, hexec, rfl, hregs, rfl, rfl, fun _ => rfl, rfl, rfl, rfl, rfl, rfl, rfl, rfl⟩

end Sys2Proof.Machine

open Sys2Proof Sys2Proof.Machine Sys2Proof.Claims

/-- Settles O19: each flag instruction writes its flag, at the bit of 10_state R26. -/
theorem flagInstructionResult : Obligations.FlagInstructionResult := by
  intro s
  exact ⟨writesBit_of_exec rfl (exec_clc s), writesBit_of_exec rfl (exec_sec s), writesBit_of_exec rfl (exec_cli s),
    writesBit_of_exec rfl (exec_sei s), writesBit_of_exec rfl (exec_cld s), writesBit_of_exec rfl (exec_sed s),
    writesBit_of_exec rfl (exec_clv s)⟩

/-- Settles O20: NOP moves PC to the number after its address, and no cycle unit charged is no change. -/
theorem nopResult : Obligations.NopResult := by
  intro s
  refine ⟨encodedAs_iff_encode.mpr rfl, goesTo_of_exec ?_⟩
  rw [State.charge_zero, addr_ofNat_toNat_add, exec_nop]

end

section
/-!
PROOFS. The family 44_branch_jump_call: the targets of BNE as numbers, and what a call leaves on the stack, which the return
takes back.
-/

namespace Sys2Proof.Machine

open Sys2Proof Sys2Proof.Claims

/-! ## The frame of an instruction in the words of the statements -/

/-- Every instruction but the sentinel leaves the control state, the parameters and the outputs. -/
theorem exec_sameRest {i : Instr} {s t : State} (h : exec i s = .next t) (hi : i ≠ .hlt) : SameRest s t := by
  obtain ⟨hir, hbpm, hcfg, hevent, htrace⟩ := exec_keeps h
  exact ⟨hir, exec_keeps_run h hi, hbpm, hcfg, hevent, htrace⟩

/-! ## The target of BNE -/

/-- The signed offset is added modulo 65536 (44 R170). -/
theorem addr_ofInt_add_offset (k : Word) (rel : Byte) :
    BitVec.ofInt 16 (k.toNat + 2 + rel.toInt) = k + 2#16 + sext16 rel := by
  have hnext : BitVec.ofInt 16 (k.toNat + 2) = k + 2#16 :=
    (BitVec.ofInt_natCast 16 (k.toNat + 2)).trans (addr_ofNat_toNat_add k 2)
  rw [BitVec.ofInt_add, hnext]
  rfl

/-! ## The stack around a call -/

/-- A call leaves the low byte of `start + 2` at SP, the high byte below it, and takes two from SP (44 R173). -/
theorem exec_jsr_stack {s t : State} {addr : Word} (h : exec (.jsr addr) s = .next t) :
    t.sp = s.sp - 2 ∧ t.byteAt (stackAddr s.sp) = loByte (s.start + 2) ∧
    t.byteAt (stackAddr (s.sp - 1)) = hiByte (s.start + 2) := by
  cases (exec_jsr s addr).symm.trans h
  refine ⟨rfl, ?_, ?_⟩
  · rw [State.byteAt_setPc, State.byteAt_setSp, State.byteAt_poke_ne _ _ (stackAddr_sub_one_ne s.sp).symm,
      State.byteAt_poke_self]
  · rw [State.byteAt_setPc, State.byteAt_setSp, State.byteAt_poke_self]

end Sys2Proof.Machine

open Sys2Proof Sys2Proof.Machine Sys2Proof.Claims

/-- Settles O23: the stacked bytes are those of `start + 2`, and the frame is that of every instruction which writes no
register and no flag and stores at the two stack addresses. -/
theorem jsrResult : Obligations.JsrResult := by
  intro s addr
  have hexec := exec_jsr s addr
  obtain ⟨hsp, hlo, hhi⟩ := exec_jsr_stack hexec
  obtain ⟨hregs, hp⟩ := exec_keeps_regs_and_p rfl rfl hexec
  refine ⟨encodedAs_of_encode_word rfl, _, hexec, rfl, ?_, ?_, ?_, exec_sameMemBut_storedAt hexec, stackAddr_toNat _, ?_,
    hregs, hp, exec_charged hexec, exec_sameRest hexec nofun⟩
  · rw [hsp]
    bv_omega
  · rw [hlo, ← low_eq_loByte, low]
    bv_omega
  · rw [hhi, ← high_eq_hiByte, high, BitVec.toNat_add]
    rfl
  · rw [stackAddr_toNat]
    bv_omega

/-- Settles O25: the two bytes popped are the two pushed, last in first out, and one more than `start + 2` is `start + 3`. -/
theorem jsrThenRtsReturns : Obligations.JsrThenRtsReturns := by
  intro s t addr c hcall
  obtain ⟨hsp, hlo, hhi⟩ := exec_jsr_stack hcall
  have hsp2 : t.sp + 2 = s.sp := by rw [hsp, BitVec.sub_add_cancel]
  have hsp1 : t.sp + 1 = s.sp - 1 := by rw [← hsp2]; bv_omega
  refine ⟨_, exec_rts _, pcPast_of_pc_eq ?_, hsp2⟩
  calc wordOf (t.byteAt (stackAddr (t.sp + 2))) (t.byteAt (stackAddr (t.sp + 1))) + 1
      = s.start + 2 + 1 := by rw [hsp2, hsp1, hlo, hhi, wordOf_lo_hi]
    _ = s.start + 3 := BitVec.add_assoc _ _ _

/-- Settles O21: with Z clear the branch is taken, to the target as a signed sum; with Z set it passes on. -/
theorem bneResult : Obligations.BneResult := by
  intro s rel
  rw [addr_ofInt_add_offset, addr_ofNat_toNat_add]
  exact ⟨encodedAs_iff_encode.mpr rfl, fun hz => goesTo_of_exec (exec_bne_taken s rel hz),
    fun hz => goesTo_of_exec (exec_bne_passed s rel hz)⟩

/-- Settles O22: both jumps only charge and move PC, the indirect one to the word at its pointer. -/
theorem jumpResult : Obligations.JumpResult := by
  intro s w
  rw [memWord_eq_wordAt]
  exact ⟨encodedAs_of_encode_word rfl, goesTo_of_exec (exec_jmpAbs s w), encodedAs_of_encode_word rfl,
    goesTo_of_exec (exec_jmpInd s w)⟩

/-- Settles O24: the word popped has the byte at SP + 2 below the byte at SP + 1, and memory is not written. -/
theorem rtsResult : Obligations.RtsResult := by
  intro s
  have hexec := exec_rts s
  obtain ⟨hregs, hp⟩ := exec_keeps_regs_and_p rfl rfl hexec
  refine ⟨encodedAs_iff_encode.mpr rfl, _, hexec, BitVec.toNat_add _ _, ?_, fun _ => rfl, hregs, hp, exec_charged hexec,
    exec_sameRest hexec nofun⟩
  rw [State.setPc_pc, BitVec.toNat_add, toNat_wordOf]
  rfl

/-- Settles O26: 0x00 is the sentinel's one byte, and its only update is that of RUN. -/
theorem sentinelResult : Obligations.SentinelResult :=
  ⟨encodedAs_iff_encode.mpr rfl, exec_hlt⟩

end

section
/-!
PROOFS. The family 45_adc: the carry-in as a number, and the sum of two bytes and a carry modulo 256.
-/

namespace Sys2Proof.Machine

open Sys2Proof Sys2Proof.Claims

/-- The carry-in is 1 or 0 by bit 0 of P (10_state R27). -/
theorem carryIn_eq_ofNat (p : Byte) : carryIn p = BitVec.ofNat 8 (if p.getLsbD 0 then 1 else 0) :=
  (apply_ite (BitVec.ofNat 8) (p.getLsbD 0 = true) 1 0).symm

/-- The model's byte sum is the number A + M + C modulo 256 (45 R180). -/
theorem byte_ofNat_toNat_add_carryIn (u v p : Byte) :
    BitVec.ofNat 8 (u.toNat + v.toNat + if p.getLsbD 0 then 1 else 0) = u + v + carryIn p := by
  rw [BitVec.ofNat_add, byte_ofNat_toNat_add, BitVec.ofNat_toNat, BitVec.setWidth_eq, carryIn_eq_ofNat]

end Sys2Proof.Machine

open Sys2Proof Sys2Proof.Machine Sys2Proof.Claims

/-- Settles O27: ADC sets A as a load does, to the byte sum, in which of P only bit 0 is read. -/
theorem adcResult : Obligations.AdcResult := by
  intro s addr
  rw [byte_ofNat_toNat_add_carryIn]
  exact setsReg_of_exec (encodedAs_of_encode_word rfl) (exec_adcAbs s addr)

end

section
/-!
PROOFS. The family 48_breakpoint_evaluator: the fire test and the evaluator by an equation per case, and the machine under
two breakpoint configurations, of which no instruction, no fault and no fetch reads either.
-/

namespace Sys2Proof.Machine

open Sys2Proof Sys2Proof.Claims

/-! ## The fire test -/

theorem BreakSet.allMatch_iff {obs : Elem → Nat} {b : BreakSet} :
    b.allMatch obs = true ↔ ∀ c ∈ b.conds, obs c.1 = c.2 := by
  simp [BreakSet.allMatch]

theorem BreakSet.fireTest_of_match {obs : Elem → Nat} {b : BreakSet} (h : b.allMatch obs = true) :
    b.fireTest obs = ({ b with counter := b.counter - 1 }, b.counter - 1 == 0) := if_pos h

theorem BreakSet.fireTest_of_no_match {obs : Elem → Nat} {b : BreakSet} (h : ¬ b.allMatch obs = true) :
    b.fireTest obs = (b, false) := if_neg h

/-- A set fires exactly when it matches with one hit remaining (48 R208). -/
theorem BreakSet.fires_iff {obs : Elem → Nat} {b : BreakSet} :
    (b.fireTest obs).2 = true ↔ b.allMatch obs = true ∧ b.counter = 1 := by
  by_cases h : b.allMatch obs = true
  · rw [fireTest_of_match h, beq_iff_eq, sub_eq_zero]
    exact (and_iff_right h).symm
  · rw [fireTest_of_no_match h]
    exact ⟨nofun, fun hb => absurd hb.1 h⟩

@[simp] theorem BreakSet.fireTest_label (obs : Elem → Nat) (b : BreakSet) : (b.fireTest obs).1.label = b.label := by
  unfold BreakSet.fireTest
  split <;> rfl

/-- After a stream of instructions only the counter of a set differs, by the number of matches (48 R208). -/
theorem afterStream_eq (b : BreakSet) (os : List (Elem → Nat)) :
    afterStream b os = { b with counter := b.counter - os.countP (fun q => b.allMatch q) } := by
  induction os generalizing b with
  | nil => simp [afterStream]
  | cons o os ih =>
    have hcons : afterStream b (o :: os) = afterStream (b.fireTest o).1 os := rfl
    rw [hcons, ih]
    by_cases h : b.allMatch o = true
    · rw [BreakSet.fireTest_of_match h, List.countP_cons_of_pos (p := fun q => b.allMatch q) h]
      have hcount : b.counter - 1 - (os.countP fun q => b.allMatch q : Nat)
          = b.counter - (os.countP (fun q => b.allMatch q) + 1 : Nat) := by omega
      exact congrArg (fun n => { b with counter := n }) hcount
    · rw [BreakSet.fireTest_of_no_match h, List.countP_cons_of_neg (p := fun q => b.allMatch q) h]

/-! ## The evaluator -/

theorem evaluate_cons_of_fires {obs : Elem → Nat} {b : BreakSet} (h : (b.fireTest obs).2 = true) (k : Nat)
    (bs : List BreakSet) : evaluate obs k (b :: bs) = ((b.fireTest obs).1 :: bs, some k) := if_pos h

theorem evaluate_cons_of_silent {obs : Elem → Nat} {b : BreakSet} (h : (b.fireTest obs).2 = false) (k : Nat)
    (bs : List BreakSet) : evaluate obs k (b :: bs) =
      ((b.fireTest obs).1 :: (evaluate obs (k + 1) bs).1, (evaluate obs (k + 1) bs).2) := if_neg (by simp [h])

/-- An evaluation that fires no set has tested them all (48 R207). -/
theorem evaluate_of_none {obs : Elem → Nat} {k : Nat} {sets : List BreakSet} (h : (evaluate obs k sets).2 = none) :
    (∀ b ∈ sets, (b.fireTest obs).2 = false) ∧ (evaluate obs k sets).1 = sets.map (fun b => (b.fireTest obs).1) := by
  induction sets generalizing k with
  | nil => exact ⟨nofun, rfl⟩
  | cons b bs ih =>
    cases hb : (b.fireTest obs).2 with
    | true =>
      rw [evaluate_cons_of_fires hb] at h
      cases h
    | false =>
      rw [evaluate_cons_of_silent hb] at h ⊢
      obtain ⟨silent, tested⟩ := ih h
      exact ⟨List.forall_mem_cons.mpr ⟨hb, silent⟩, congrArg ((b.fireTest obs).1 :: ·) tested⟩

/-- An evaluation that fires a set has tested the sets up to it and left the sets after it (48 R207, R209). -/
theorem evaluate_of_some {obs : Elem → Nat} {k j : Nat} {sets : List BreakSet} (h : (evaluate obs k sets).2 = some j) :
    ∃ pre b post, sets = pre ++ b :: post ∧ j = k + pre.length ∧ (∀ c ∈ pre, (c.fireTest obs).2 = false) ∧
      (b.fireTest obs).2 = true ∧
      (evaluate obs k sets).1 = pre.map (fun c => (c.fireTest obs).1) ++ (b.fireTest obs).1 :: post := by
  induction sets generalizing k with
  | nil => cases h
  | cons b bs ih =>
    cases hb : (b.fireTest obs).2 with
    | true =>
      rw [evaluate_cons_of_fires hb] at h ⊢
      cases h
      exact ⟨[], b, bs, rfl, rfl, nofun, hb, rfl⟩
    | false =>
      rw [evaluate_cons_of_silent hb] at h ⊢
      obtain ⟨pre, c, post, rfl, rfl, silent, fires, tested⟩ := ih h
      exact ⟨b :: pre, c, post, rfl, by rw [List.length_cons]; omega, List.forall_mem_cons.mpr ⟨hb, silent⟩, fires,
        congrArg ((b.fireTest obs).1 :: ·) tested⟩

/-- What a test keeps of a set, an evaluation keeps of every set. -/
theorem evaluate_map_of_fireTest {α : Type} {f : BreakSet → α} {obs : Elem → Nat}
    (hf : ∀ b : BreakSet, f (b.fireTest obs).1 = f b) (k : Nat) (sets : List BreakSet) :
    (evaluate obs k sets).1.map f = sets.map f := by
  cases h : (evaluate obs k sets).2 with
  | none => simp [(evaluate_of_none h).2, hf]
  | some j =>
    obtain ⟨pre, b, post, rfl, -, -, -, tested⟩ := evaluate_of_some h
    simp [tested, hf]

/-! ## The observed flags -/

/-- The raw value of a flag is the flag's mask or 0 (48 R206). -/
theorem rawFlag_eq (p : Byte) (f : Flag) : rawFlag p f = if p.getLsbD f.bit then f.mask.toNat else 0 := by
  have hmask : f.mask = BitVec.twoPow 8 f.bit := rfl
  rw [rawFlag, hmask, BitVec.and_twoPow, apply_ite BitVec.toNat]
  rfl

/-! ## The check in the step -/

/-- The fetch that ends a step leaves what the check wrote (40 R106). -/
theorem State.finishStep_check (u : State) : u.finishStep.bpm = u.check.bpm ∧ u.finishStep.event = u.check.event := by
  unfold State.finishStep State.fetchNext
  dsimp only
  split <;> exact ⟨rfl, rfl⟩

theorem stepEvent_eq (single : Bool) (fired : Option Nat) :
    stepEvent single fired = if single = true ∨ fired ≠ none then .haltRequested fired else .none := by
  cases single <;> cases fired <;> rfl

/-! ## The machine under another breakpoint configuration -/

/-- The state with another breakpoint manager and another event. -/
def State.watchedBy (s : State) (m : Bpm) (e : Event) : State := { s with bpm := m, event := e }

theorem sameForProgram_watchedBy (s : State) (m : Bpm) (e : Event) : SameForProgram (.next s) (.next (s.watchedBy m e)) :=
  rfl

/-- An instruction neither reads nor writes the breakpoint manager and the event (48 R214). BNE reads Z, and the two
zero-page loads read `ZP_WRAP`; every other meaning is one expression for both states. -/
theorem exec_watchedBy {i : Instr} {s t : State} (h : exec i s = .next t) (m : Bpm) (e : Event) :
    exec i (s.watchedBy m e) = .next (t.watchedBy m e) := by
  cases i
  case bne rel =>
    cases hz : flagOf s.p .z with
    | false =>
      cases (exec_bne_taken s rel hz).symm.trans h
      exact exec_bne_taken _ rel hz
    | true =>
      cases (exec_bne_passed s rel hz).symm.trans h
      exact exec_bne_passed _ rel hz
  case ldaIzx zp =>
    cases (exec_ldaIzx s zp).symm.trans h
    exact exec_ldaIzx _ zp
  case ldaIzy zp =>
    cases (exec_ldaIzy s zp).symm.trans h
    exact exec_ldaIzy _ zp
  all_goals
    cases h
    rfl

theorem State.fetchNext_watchedBy (s : State) (m : Bpm) (e : Event) :
    (s.watchedBy m e).fetchNext = s.fetchNext.watchedBy m e := by
  unfold State.fetchNext
  dsimp only
  rw [apply_ite (State.watchedBy · m e)]
  rfl

/-- The end of a step is the same for both, up to what the check writes (40 R101, 48 R214). -/
theorem State.finishStep_watchedBy (u : State) (m : Bpm) (e : Event) :
    (u.watchedBy m e).finishStep =
      u.finishStep.watchedBy (u.watchedBy m e).check.bpm (u.watchedBy m e).check.event :=
  State.fetchNext_watchedBy u.check.closeCtx _ _

/-- A machine that is not running stops by RUN alone (10_state R37). -/
theorem step_fault_of_not_running {s : State} (h : s.run ≠ .running) (m : Bpm) (e : Event) :
    ∃ f, step s = .fault f ∧ step (s.watchedBy m e) = .fault f := by
  obtain ⟨off, halted, faulted⟩ := stoppedMachineHasNoStep s
  obtain ⟨off', halted', faulted'⟩ := stoppedMachineHasNoStep (s.watchedBy m e)
  cases hr : s.run with
  | running => exact absurd hr h
  | off => exact ⟨_, off hr, off' hr⟩
  | halted => exact ⟨_, halted hr, halted' hr⟩
  | faulted op pc => exact ⟨_, faulted op pc hr, faulted' op pc hr⟩

/-- A running machine steps to states that differ at most in the breakpoint manager and the event: by the fault, by the
sentinel, or by the instruction ahead, which is the same in both (48 R214). -/
theorem step_watchedBy_of_running {s : State} (hrun : s.run = .running) (m : Bpm) (e : Event) :
    ∃ t m' e', step s = .next t ∧ step (s.watchedBy m e) = .next (t.watchedBy m' e') := by
  cases hahead : s.instrAhead with
  | error err =>
    exact ⟨_, m, .none, step_of_no_instrAhead hrun hahead, step_of_no_instrAhead (s := s.watchedBy m e) hrun hahead⟩
  | ok i =>
    by_cases hi : i = .hlt
    · subst hi
      exact ⟨_, m, .none, step_of_hlt_ahead hrun hahead, step_of_hlt_ahead (s := s.watchedBy m e) hrun hahead⟩
    · obtain ⟨u, hu, hstep⟩ := step_executes hrun hahead hi
      have hstep' := step_of_instrAhead (s := s.watchedBy m e) hrun hahead hi (exec_watchedBy hu m .none)
      rw [State.finishStep_watchedBy] at hstep'
      exact ⟨_, _, _, hstep, hstep'⟩

theorem run_succ_of_next {M : Host.Core} {s t : M.State} (h : M.step s = .next t) (n : Nat) :
    M.run (n + 1) s = M.run n t := by
  rw [Host.Core.run, h]

theorem run_succ_of_fault {M : Host.Core} {s : M.State} {f : M.Fault} (h : M.step s = .fault f) (n : Nat) :
    M.run (n + 1) s = .fault f := by
  rw [Host.Core.run, h]

/-- A run of any length is the same for the program under every breakpoint configuration (48 R214). -/
theorem run_watchedBy (n : Nat) (s : State) (m : Bpm) (e : Event) :
    SameForProgram (Host.Core.run Sys2Proof.core n s) (Host.Core.run Sys2Proof.core n (s.watchedBy m e)) := by
  induction n generalizing s m e with
  | zero => exact sameForProgram_watchedBy s m e
  | succ n ih =>
    by_cases hrun : s.run = .running
    · obtain ⟨t, m', e', hs, hw⟩ := step_watchedBy_of_running hrun m e
      rw [run_succ_of_next (M := Sys2Proof.core) hs, run_succ_of_next (M := Sys2Proof.core) hw]
      exact ih t m' e'
    · obtain ⟨f, hs, hw⟩ := step_fault_of_not_running hrun m e
      rw [run_succ_of_fault (M := Sys2Proof.core) hs, run_succ_of_fault (M := Sys2Proof.core) hw]
      exact rfl

end Sys2Proof.Machine

open Sys2Proof Sys2Proof.Machine Sys2Proof.Claims

/-- Settles O54: the check writes the counters and the event, a test keeps conditions and label, and the runs under two
configurations step together. -/
theorem breakpointsAreTransparent : Obligations.BreakpointsAreTransparent := by
  refine ⟨fun s => ⟨rfl, evaluate_map_of_fireTest (fun b => ?_) 0 s.bpm.sets⟩, run_watchedBy⟩
  rw [BreakSet.fireTest_conds, BreakSet.fireTest_label]

/-- Settles O40: the step ends with the check of the state the instruction left, whose breakpoint manager is the step's. -/
theorem stepEvaluatesBreakpoints : Obligations.StepEvaluatesBreakpoints := by
  intro s t u i hrun hahead hi hu hstep
  cases (step_of_instrAhead hrun hahead hi hu).symm.trans hstep
  obtain ⟨-, hbpm, -⟩ := exec_keeps hu
  obtain ⟨checkBpm, checkEvent⟩ := u.finishStep_check
  rw [checkBpm, checkEvent, ← stepEvent_eq]
  rw [State.openInstr_bpm] at hbpm
  rw [← hbpm]
  exact ⟨rfl, rfl, rfl⟩

/-- Settles O52: the evaluation from index 0 on either tested every set or stopped at the first that fired. -/
theorem firstFiringSetWins : Obligations.FirstFiringSetWins := by
  intro obs sets
  cases h : (evaluate obs 0 sets).2 with
  | none => exact evaluate_of_none h
  | some j =>
    obtain ⟨pre, b, post, hsets, hj, rest⟩ := evaluate_of_some h
    exact ⟨pre, b, post, hsets, hj.trans (Nat.zero_add _), rest⟩

/-- Settles O53: after the stream the counter is the trigger count less the matches, and the set fires when it is one. -/
theorem firesExactlyOnNthMatch : Obligations.FiresExactlyOnNthMatch := by
  intro b os o
  rw [BreakSet.fires_iff, afterStream_eq]
  exact and_congr_right fun _ => sub_eq_iff_eq_add'

/-- Settles O50: each element reads its register, and a flag element the flag's mask or 0. -/
theorem observedValues : Obligations.ObservedValues := by
  intro s
  refine ⟨rfl, fun c hc => ?_, rfl, rfl, rfl, rfl, rawFlag_eq s.p .c, rawFlag_eq s.p .z, rawFlag_eq s.p .i,
    rawFlag_eq s.p .d, rawFlag_eq s.p .v, rawFlag_eq s.p .n⟩
  rw [observe, State.start, hc]

/-- Settles O51: the two cases of the fire test, by whether all conditions match. -/
theorem fireTestRule : Obligations.FireTestRule := by
  intro obs b
  rw [← BreakSet.allMatch_iff]
  exact ⟨BreakSet.fires_iff, fun h => congrArg Prod.fst (BreakSet.fireTest_of_match h),
    fun h => congrArg Prod.fst (BreakSet.fireTest_of_no_match h)⟩

end

section
/-!
PROOFS. The family 70_reset_and_hazards, with one decision of 92: the jump that reset forces is the instruction ahead of the
first step, the host's moves by the run states that open them, and the zero-page pointer away from the end of page zero.
-/

namespace Sys2Proof.Machine

open Sys2Proof Sys2Proof.Claims

/-! ## The jump that reset forces -/

/-- The address one below another, as a number modulo 65536 (70 R260). -/
theorem addr_toNat_sub_one (k : Word) : (k - 1).toNat = (k.toNat + 65535) % 65536 := by
  rw [BitVec.toNat_sub, Nat.add_comm]
  rfl

/-- Under D1 the opcode that reset forces is the one of JMP absolute (70 R260). -/
theorem Config.classify_jmpOpcode {c : Config} (h : c.wf = true) :
    classify c.table (Config.jmpOpcode c) = .instr .jmpAbs := by
  obtain ⟨-, -, -, -, hcovered⟩ := Config.wf_iff.mp h
  obtain ⟨b, hb⟩ := Option.isSome_iff_exists.mp (hcovered .jmpAbs)
  rw [Config.jmpOpcode, hb]
  exact (opcodeOf_eq_some_iff_classify h).mp hb

theorem Config.jmpOpcode_of_defaultTable {c : Config} (h : c.table = defaultTable) : Config.jmpOpcode c = 0x4C := by
  rw [Config.jmpOpcode, h]
  rfl

@[simp] theorem State.byteAt_resetOp (s : State) (k : Word) : s.resetOp.byteAt k = s.byteAt k := rfl

/-- The instruction ahead of the first step after reset has its operand at the reset vector, for PC is one below it
(70 R261). -/
theorem State.instrAhead_resetOp {s : State} (h : s.cfg.wf = true) :
    s.resetOp.instrAhead = .ok (.jmpAbs (s.wordAt s.cfg.resetVector)) := by
  have hlo : s.cfg.resetVector - 1#16 + 1#16 = s.cfg.resetVector := BitVec.sub_add_cancel _ _
  have hhi : s.cfg.resetVector - 1#16 + 2#16 = s.cfg.resetVector + 1#16 := by bv_omega
  refine State.instrAhead_eq_ok_iff.mpr ⟨[], decode_eq_ok_iff.mpr ⟨_, Config.classify_jmpOpcode h, ?_⟩⟩
  simp [State.instrBytes, Instr.operandBytes, State.wordAt, hlo, hhi]

/-- The state in which the first step after reset is checked: the forced jump has been executed (70 R265). -/
def State.afterResetJump (s : State) : State :=
  ((s.resetOp.openInstr (.jmpAbs (s.wordAt s.cfg.resetVector))).charge 2).setPc (s.wordAt s.cfg.resetVector)

theorem exec_resetJump (s : State) :
    exec (.jmpAbs (s.wordAt s.cfg.resetVector)) (s.resetOp.openInstr (.jmpAbs (s.wordAt s.cfg.resetVector))) =
      .next s.afterResetJump :=
  exec_jmpAbs _ _

/-- The first step after reset executes the forced jump and finishes the step (70 R261). -/
theorem step_resetOp {s : State} (h : s.cfg.wf = true) : step s.resetOp = .next s.afterResetJump.finishStep :=
  step_of_instrAhead rfl (State.instrAhead_resetOp h) nofun (exec_resetJump s)

/-! ## The host's moves -/

/-- Registering is open only before reset (48 R204). -/
theorem HostMove.isOpen_register_iff {b : BreakSet} {r : RunState} :
    (HostMove.register b).isOpen r = true ↔ r = .off := by
  cases r <;> simp [HostMove.isOpen]

/-- Single step is written before reset and between the steps of a running machine (70 R266). -/
theorem HostMove.isOpen_setSingleStep_iff {v : Bool} {r : RunState} :
    (HostMove.setSingleStep v).isOpen r = true ↔ r = .off ∨ r = .running := by
  cases r <;> simp [HostMove.isOpen]

/-- A host move that R266 does not open is refused by name (log 11). -/
theorem hostMove_of_not_open {m : HostMove} {s : State} (h : ¬ m.isOpen s.run = true) :
    hostMove m s = .refused .hostMoveNotOpen := if_neg h

/-- Reset is open in every run state (70 R276). -/
theorem hostMove_reset (s : State) : hostMove .reset s = .next s.resetOp := rfl

/-! ## The zero-page pointer -/

/-- A sum of bytes that does not wrap at 8 bits is the same as an address. -/
theorem zext16_add_of_lt {u v : Byte} (h : u.toNat + v.toNat < 256) : zext16 (u + v) = zext16 u + zext16 v := by
  rw [zext16_add_eq_ofNat, Nat.mod_eq_of_lt h, zext16_eq_ofNat, zext16_eq_ofNat, BitVec.ofNat_add]

/-- While both bytes of the pointer lie in page zero it is the same under both settings of `ZP_WRAP` (92 D13). -/
theorem State.zpPointer_eq_of_le (s : State) {zp idx : Byte} (h : zp.toNat + idx.toNat ≤ 0xFE) (v w : Bool) :
    s.zpPointer v zp idx = s.zpPointer w zp idx := by
  have hlo : zext16 (zp + idx) = zext16 zp + zext16 idx := zext16_add_of_lt (by omega)
  have hhi : zext16 (zp + idx + 1) = zext16 zp + zext16 idx + 1 := by
    rw [zext16_add_of_lt (by bv_omega), hlo]
    rfl
  have hwrap : s.zpPointer true zp idx = s.zpPointer false zp idx := by
    simp only [State.zpPointer, State.wordAt, hlo, hhi, if_true, Bool.false_eq_true, if_false]
  cases v <;> cases w <;> simp [hwrap]

end Sys2Proof.Machine

open Sys2Proof Sys2Proof.Machine Sys2Proof.Claims

/-- Settles O48: the step executes the jump reset forced, whose operand is the word at the reset vector, and ends with the
check of the state the jump left and the fetch at its target. -/
theorem resetStepLoadsVector : Obligations.ResetStepLoadsVector := by
  intro s hwf
  obtain ⟨keepA, keepX, keepY, keepSp, keepP, keepPc, keepMem, -⟩ := s.afterResetJump.finishStep_keeps
  obtain ⟨fetchIr, fetchRun⟩ := s.afterResetJump.finishStep_fetch
  rw [← fetchIr] at fetchRun
  have hpc : s.afterResetJump.finishStep.pc = memWord s s.cfg.resetVector := by
    rw [keepPc, memWord_eq_wordAt]
    rfl
  have hir : s.afterResetJump.finishStep.ir = s.byteAt s.afterResetJump.finishStep.pc := by
    rw [fetchIr, keepPc]
    rfl
  have htrace := s.afterResetJump.finishStep_trace.trans (exec_openInstr_traceRow (exec_resetJump s))
  have hsets : s.afterResetJump.finishStep.bpm.sets = (evaluate (observe s.afterResetJump) 0 s.bpm.sets).1 := by
    rw [s.afterResetJump.finishStep_check.1]
    rfl
  have hflags : ∀ e ∈ [Elem.c, .z, .i, .d, .v, .n], observe s.afterResetJump e = 0 := by
    simp [observe, rawFlag, State.afterResetJump]
  exact ⟨_, s.afterResetJump, _, step_resetOp hwf, hpc, hir, fetchRun, keepSp, keepP, keepA, keepX, keepY, keepMem, htrace,
    rfl, hsets, rfl, addr_toNat_sub_one _, rfl, rfl, rfl, rfl, hflags⟩

/-- Settles O57: loading keeps memory canonical, the breakpoint manager stands in no clause, and reset establishes the
invariant anew. -/
theorem hostMovesKeepInvariant : Obligations.HostMovesKeepInvariant :=
  fun _ _ _ hs h => hostMove_keeps_inv hs h

/-- Settles O15: the pointer is the same under both settings, and the two loads read `ZP_WRAP` for nothing else. -/
theorem zpWrapAgreesInRange : Obligations.ZpWrapAgreesInRange := by
  intro s zp w
  refine ⟨fun h => ⟨_, _, exec_ldaIzx s zp, exec_ldaIzx _ zp, ?_⟩,
    fun h => ⟨_, _, exec_ldaIzy s zp, exec_ldaIzy _ zp, ?_⟩⟩
  · rw [s.zpPointer_eq_of_le h s.cfg.zpWrap w]
    rfl
  · rw [s.zpPointer_eq_of_le (idx := 0) h s.cfg.zpWrap w]
    rfl

/-- Settles O46: the move is open in every run state, and its effect is the reset operation. -/
theorem resetEffect : Obligations.ResetEffect := by
  intro s
  exact ⟨_, hostMove_reset s, addr_toNat_sub_one _, Config.classify_jmpOpcode, Config.jmpOpcode_of_defaultTable, rfl, rfl,
    rfl, rfl, rfl, rfl, rfl, rfl, rfl, rfl⟩

/-- Settles O49: each move by the run states that open it. -/
theorem hostMovesWhenOpen : Obligations.HostMovesWhenOpen := by
  intro s
  refine ⟨fun b => ?_, fun v => ?_, fun addr bs hrun => ?_, hostMove_reset s⟩
  · exact if_congr HostMove.isOpen_register_iff rfl rfl
  · exact if_congr HostMove.isOpen_setSingleStep_iff rfl rfl
  · exact hostMove_of_not_open (mt HostMove.isOpen_loadProgram_iff.mp hrun)

end
